-- ==== Sys2Proof/Syntax.lean ====
section
/-! DEFINITION. The instructions of BFPX-1: one constructor per row of spec/opcode_table.json. -/

namespace Sys2Proof

/-- The five operations a command word can select (spec/30_encoding.md R63). A command word has no
operand fields (R62), so no constructor has an argument. -/
inductive Instr where
  /-- PACK: pack an instant and random bits (R79). -/
  | pack
  /-- PACKF: pack a timestamp field and random bits (R80). -/
  | packf
  /-- UNPACK: isolate the fields of an identifier word (R85). -/
  | unpack
  /-- TOBYTES: the binary form of an identifier word (R89). -/
  | tobytes
  /-- FROMBYTES: the identifier word of a binary form (R90). -/
  | frombytes
  deriving DecidableEq, Repr

end Sys2Proof
end

