-- ==== Sys2Proof/Word.lean ====
section
/-! DEFINITION. The word sizes of BFPX: the byte of the binary form, the 32-bit register of the window,
the 64-bit operand and result groups, the 128-bit identifier word (spec/00_scope.md R11). -/

namespace Sys2Proof

/-- One byte of the binary form (R16) and one byte lane of the bus (R45). -/
abbrev Byte := BitVec 8

/-- One register of the window, and the data of one legal access (R14, R48). -/
abbrev Word32 := BitVec 32

/-- A group of two registers (R15). -/
abbrev Word64 := BitVec 64

/-- A group of four registers (R15, R16), and the identifier word (R2). -/
abbrev Word128 := BitVec 128

end Sys2Proof
end

