-- ==== Sys2Proof/Decode.lean ====
section
/-! DEFINITION. The command-word decoder, total on 32-bit words (spec/30_encoding.md R61 to R66), and
the encoder. -/

namespace Sys2Proof

/-- Why a command word is UNSUPPORTED (R64). Both reasons have the same effect (R94). -/
inductive DecodeReject where
  /-- A bit of RSVD, bits 31:4, is 1. -/
  | reservedBits
  /-- RSVD is 0 and OP is 0x0 or 0x6 to 0xF. -/
  | reservedOpcode
  deriving DecidableEq, Repr

/-- The field RSVD, bits 31:4 of a command word (R61). -/
def rsvdField (c : Word32) : BitVec 28 := c.extractLsb' 4 28

/-- The field OP, bits 3:0 of a command word (R61). -/
def opField (c : Word32) : BitVec 4 := c.extractLsb' 0 4

/-- The operation an OP value selects (R63), none for the reserved values. -/
def opOf (op : BitVec 4) : Option Instr :=
  match op.toNat with
  | 0x1 => some .pack
  | 0x2 => some .packf
  | 0x3 => some .unpack
  | 0x4 => some .tobytes
  | 0x5 => some .frombytes
  | _ => none

/-- The decoder of R65, with the reason where it refuses. -/
def decode (c : Word32) : Except DecodeReject Instr :=
  if rsvdField c ≠ 0 then .error .reservedBits
  else match opOf (opField c) with
    | some i => .ok i
    | none => .error .reservedOpcode

/-- The command word of each operation (R63). -/
def encode : Instr → Word32
  | .pack => 0x00000001#32
  | .packf => 0x00000002#32
  | .unpack => 0x00000003#32
  | .tobytes => 0x00000004#32
  | .frombytes => 0x00000005#32

/-- The host's question on one row of spec/opcode_table.json: the instruction read from the command word
whose bits are `w`. A word of more than 32 bits is no command word (R66). -/
def decodeTableWord (nbits w : Nat) : Option Instr :=
  let c := w % 2 ^ nbits
  if c < 2 ^ 32 then
    match decode (BitVec.ofNat 32 c) with
    | .ok i => some i
    | .error _ => none
  else none

end Sys2Proof
end

