-- ==== Sys2Proof/Config.lean ====
section
/-! DEFINITION. What a build of BFPX fixes (spec/00_scope.md R5, R11), the constant EPOCH_MS (R7),
and the free values the spec leaves open. -/

namespace Sys2Proof

/-- BUS_ERROR_POLICY, what the host does when BFPX answers with a bus error: a parameter the spec
leaves open (60_exceptions.md R98; 93_implementation_defined.md U2). DESIGN CHOICE of the two values:
notes/assumptions/11.md. -/
inductive BusErrorPolicy where
  /-- The host takes note of the bus error and goes on. -/
  | report
  /-- The host faults the program that issued the access. -/
  | faultProgram
  deriving DecidableEq, Repr

/-- The build parameters of BFPX (R11). They are configuration and never change; State carries them
so that one step function serves every build (DESIGN CHOICE: notes/assumptions/1.md). -/
structure Build where
  /-- `W_T`, the width of the timestamp field in bits (R5). -/
  wT : Nat
  /-- `W_R`, the width of the random field in bits (R5). -/
  wR : Nat
  /-- `BFPX_BASE`, the address of the window in the host's address map (R41). -/
  base : Nat
  /-- `LATENCY`, the cycles a command holds the bus (R121). -/
  latency : Nat
  /-- `BUS_ERROR_POLICY` (R98). -/
  busErrorPolicy : BusErrorPolicy
  deriving DecidableEq, Repr

/-- `RSV`, the number of reserved bits (R2, R11; 90_conflicts.md C5). -/
def Build.rsv (b : Build) : Nat := 128 - b.wT - b.wR

/-- The default build: the canonical 48/58 split (R5). BFPX_BASE, LATENCY and BUS_ERROR_POLICY are open
in the spec; the values here are a DESIGN CHOICE (notes/assumptions/12.md). -/
def Build.reference : Build :=
  { wT := 48, wR := 58, base := 0, latency := 1, busErrorPolicy := .report }

/-- The other split the source reports, 43/62, a legal build (R5). -/
def Build.split4362 : Build := { Build.reference with wT := 43, wR := 62 }

/-- `EPOCH_MS`: 2020-01-01T00:00:00Z in milliseconds since 1970-01-01T00:00:00Z (R7). -/
def Config.epochMs : Nat := 1577836800000

/-- The free values: the `n`-th value that the spec calls any value or a draw (R49, R110). It has no body, so
nothing can be proved of any one of them (notes/assumptions/4.md). -/
opaque Config.freeValue : Nat → Word128

end Sys2Proof
end

