-- ==== Sys2Proof/Machine/State.lean ====
section
/-! DEFINITION. The state of BFPX: the record of spec/10_state.md R39, the reset and power condition
(70_reset_and_hazards.md R109, R110), the build, and the inputs and answers at the bus port. -/

namespace Sys2Proof.Machine

/-- The whole architectural state of BFPX (R39). Register number `j` of a group is its bits
`32*j+31 : 32*j` (R15); byte `k` of a BYTES group is its bits `8*k+7 : 8*k` (R16). -/
structure Regs where
  /-- WORD_IN, the identifier-word operand of UNPACK and TOBYTES (R21). -/
  wordIn : Word128
  /-- MS_IN, the instant operand of PACK (R22). -/
  msIn : Word64
  /-- TS_IN, the timestamp-field operand of PACKF (R23). -/
  tsIn : Word64
  /-- RND_IN, the random-bits operand of PACK and PACKF (R24). -/
  rndIn : Word64
  /-- BYTES_IN, the binary-form operand of FROMBYTES (R25). -/
  bytesIn : Word128
  /-- WORD_OUT, the identifier word made by PACK, PACKF or FROMBYTES (R26). -/
  wordOut : Word128
  /-- MS_OUT, the instant found by UNPACK (R27). -/
  msOut : Word64
  /-- TS_OUT, the timestamp field isolated by UNPACK (R28). -/
  tsOut : Word64
  /-- RND_OUT, the random field isolated by UNPACK (R29). -/
  rndOut : Word64
  /-- BYTES_OUT, the binary form made by TOBYTES (R30). -/
  bytesOut : Word128
  /-- STATUS.CODE, the outcome of the most recent command (R20). -/
  code : BitVec 3
  deriving DecidableEq, Repr

/-- The reset and power condition of the block (R109, R110). -/
inductive Phase where
  /-- Reset has been applied and released since power came: accesses are answered. -/
  | running
  /-- The reset input is asserted: no access is answered (R109). -/
  | inReset
  /-- Powered, and not yet reset: the registers hold unspecified values (R110). -/
  | powerUp
  deriving DecidableEq, Repr

/-- What a bus access asks for: BFPX's counterpart of a load or a store (20_memory.md section 4). The
write data of an access of another width than 32 bits is never used, so 32 bits hold it
(DESIGN CHOICE: notes/assumptions/14.md). -/
inductive AccessKind where
  | read
  | write (data : Word32)
  deriving DecidableEq, Repr

/-- One bus access as it arrives at the port: any byte address of the host's map, any size in bytes.
Which are legal is a matter of R48, not of this type. -/
structure Access where
  addr : Nat
  size : Nat
  kind : AccessKind
  deriving DecidableEq, Repr

/-- One input of the block (R123): a bus access of any agent, the reset input, or the power. -/
inductive Event where
  /-- A bus access (R45 to R57). -/
  | access (a : Access)
  /-- The reset input is asserted (R109). -/
  | assertReset
  /-- The reset input is released (R109). -/
  | releaseReset
  /-- Power is lost and comes back (R108, R110). -/
  | powerCycle
  deriving DecidableEq, Repr

/-- The bus's answer to one access. The data of a read that BFPX does not answer with a register is a
free value; a write has none. -/
inductive Response where
  /-- The normal response to a write (R51, R52). -/
  | done
  /-- The data of a legal read (R50). -/
  | data (v : Word32)
  /-- A bus error (R49), for a read with the unspecified data it returns. -/
  | busError (v : Option Word32)
  /-- The address is outside the window, so the answer is the platform's and not BFPX's (R42). -/
  | elsewhere (v : Option Word32)
  deriving DecidableEq, Repr

/-- The state of the model: the spec's record and its reset and power condition, the build, and the
model's own fields for the port (DESIGN CHOICE: notes/assumptions/1.md to 4.md). -/
structure State where
  /-- The architectural state (R39). -/
  regs : Regs
  /-- The reset and power condition (R109, R110). -/
  phase : Phase
  /-- The build parameters (R11); no step changes them. -/
  build : Build
  /-- The inputs still to arrive, the next one first: BFPX takes them one at a time in this order (R55). -/
  pending : List Event
  /-- The answer to the most recent access; none before the first one. -/
  response : Option Response
  /-- How many free values have been drawn. -/
  draws : Nat
  deriving DecidableEq, Repr

/-- Why a run stops. -/
inductive Fault where
  /-- Raised by the bus (`illegalAccess`) on an illegal access in a build whose BUS_ERROR_POLICY is
  `faultProgram` (R49, R98; U2). Safe: BFPX itself would go on, unchanged. -/
  | busError
  deriving DecidableEq, Repr

/-- Why a step is not made. -/
inductive Refusal where
  /-- Raised by an arm of `exec` that has no meaning yet; no arm is such an arm. Safe. -/
  | notModelled (mnemonic : String)
  /-- Raised by every step and every command in a build outside the legal range (R6; I1). Safe. -/
  | illegalBuild
  /-- Raised by the bus on an access while reset is asserted (R109; U4). Safe: the host must issue none. -/
  | accessDuringReset
  /-- Raised by the bus on an access between power-up and the first reset (R110; U3). Safe: a reset is
  required before the first access. -/
  | accessBeforeReset
  /-- Raised by the host-program layer on a jump to a label the program does not hold (R67). Safe: such a
  text is no host program. -/
  | undefinedLabel (label : String)
  /-- Raised by the host-program layer where a line writes a value that the host has not read (R68,
  `mov.out.in`). Safe: such a text is no host program. -/
  | noValueRead
  deriving DecidableEq, Repr

/-- The registers after reset (R40). -/
def Regs.reset : Regs :=
  { wordIn := 0, msIn := 0, tsIn := 0, rndIn := 0, bytesIn := 0,
    wordOut := 0, msOut := 0, tsOut := 0, rndOut := 0, bytesOut := 0, code := 0 }

/-- The machine right after reset, for any build (R40, R109), with no input on its way. -/
def State.resetOf (b : Build) : State :=
  { regs := Regs.reset, phase := .running, build := b, pending := [], response := none, draws := 0 }

/-- The default build right after reset (R5, R40, R109). -/
def State.reset : State := State.resetOf Build.reference

end Sys2Proof.Machine
end

