-- ==== Sys2Proof/Machine/Flags.lean ====
section
/-! DEFINITION. The status codes. BFPX has no flags (spec/10_state.md R36): STATUS.CODE is its one
status field, and this file holds its values and the word a read of STATUS gives (R20). -/

namespace Sys2Proof.Machine

/-- The outcomes a command can report (60_exceptions.md R93). -/
inductive Code where
  /-- The command completed. -/
  | ok
  /-- A reserved bit of the word is 1 (UNPACK, FROMBYTES). -/
  | invalidFormat
  /-- The timestamp value is not representable (PACK, PACKF). -/
  | outOfRange
  /-- The command word is reserved. -/
  | unsupported
  deriving DecidableEq, Repr

/-- The value of STATUS.CODE for each outcome (R20, R93). -/
def codeBits : Code → BitVec 3
  | .ok => 0
  | .invalidFormat => 1
  | .outOfRange => 2
  | .unsupported => 3

/-- The word a read of STATUS gives: CODE in bits 2:0, the reserved bits 31:3 zero (R20). -/
def statusWord (code : BitVec 3) : Word32 := code.setWidth 32

end Sys2Proof.Machine
end

