-- ==== Sys2Proof/Machine/Operands.lean ====
section
/-! DEFINITION. The notation of spec/00_scope.md section 5 and the operand forms: slices, masks, the
registers of a group (10_state.md R15), the bytes of a BYTES group (R16), the fields of an identifier
word (R3), validity (R84), the range test (R78) and the pack formula (R79, R80). -/

namespace Sys2Proof.Machine

/-- `v[hi:lo]` as a number; 0 when `hi < lo` (00_scope.md section 5). -/
def slice {n : Nat} (v : BitVec n) (hi lo : Nat) : Nat := (v.toNat >>> lo) % 2 ^ (hi + 1 - lo)

/-- `mask(n) = 2^n - 1` (00_scope.md section 5). -/
def mask (n : Nat) : Nat := 2 ^ n - 1

/-- Register number `j` of a group: the register at the lowest offset holds the least significant 32
bits (R15). -/
def groupReg {n : Nat} (g : BitVec n) (j : Nat) : Word32 := g.extractLsb' (32 * j) 32

/-- The group with register number `j` replaced by `v` (R15). -/
def setGroupReg {n : Nat} (g : BitVec n) (j : Nat) (v : Word32) : BitVec n :=
  (g &&& ~~~((BitVec.allOnes 32).setWidth n <<< (32 * j))) ||| (v.setWidth n <<< (32 * j))

/-- Byte lane `k` of a bit vector, bits `8*k+7 : 8*k`: byte `k` of a BYTES group (R16), or byte lane `k`
of a register (R45). -/
def byteLane {n : Nat} (g : BitVec n) (k : Nat) : Byte := g.extractLsb' (8 * k) 8

/-- The BYTES group whose byte `k` is `b k` (R16). -/
def bytesGroup (b : Nat → Byte) : Word128 :=
  b 15 ++ b 14 ++ b 13 ++ b 12 ++ b 11 ++ b 10 ++ b 9 ++ b 8 ++
  b 7 ++ b 6 ++ b 5 ++ b 4 ++ b 3 ++ b 2 ++ b 1 ++ b 0

/-- Byte `k` of `be16(w)`, `w[127-8k : 120-8k]`: byte 0 is the most significant (R89). -/
def be16 (w : Word128) (k : Nat) : Byte := w.extractLsb' (120 - 8 * k) 8

/-- The word whose big-endian bytes are `b 0` to `b 15`, byte 0 most significant (R90). -/
def wordOfBe16 (b : Nat → Byte) : Word128 :=
  b 0 ++ b 1 ++ b 2 ++ b 3 ++ b 4 ++ b 5 ++ b 6 ++ b 7 ++
  b 8 ++ b 9 ++ b 10 ++ b 11 ++ b 12 ++ b 13 ++ b 14 ++ b 15

/-- `bswap32`, the four bytes of a register reversed (43_binary_form.md R92). -/
def bswap32 (v : Word32) : Word32 := byteLane v 0 ++ byteLane v 1 ++ byteLane v 2 ++ byteLane v 3

/-- `valid(w)`: the reserved bits are all zero (R84). -/
abbrev ValidWord (b : Build) (w : Word128) : Prop := slice w 127 (b.wT + b.wR) = 0

/-- `representable(d)`, on the exact value (R78). -/
abbrev Representable (b : Build) (d : Int) : Prop := 0 ≤ d ∧ d < 2 ^ b.wT

/-- The timestamp field of an identifier word, `w[W_R+W_T-1 : W_R]` (R3, R85). -/
def timestampField (b : Build) (w : Word128) : Nat := slice w (b.wR + b.wT - 1) b.wR

/-- The random field of an identifier word, `w[W_R-1 : 0]` (R3, R85). -/
def randomField (b : Build) (w : Word128) : Nat := slice w (b.wR - 1) 0

/-- The pack formula, `zext_128((d << W_R) | (r & mask(W_R)))` (R79, R80). -/
def packWord (b : Build) (d : Nat) (r : Word64) : Word128 :=
  BitVec.ofNat 128 ((d <<< b.wR) ||| (r.toNat &&& mask b.wR))

/-- The instant of a timestamp field, `ts + EPOCH_MS` as a 64-bit two's-complement pattern (R85). -/
def instantOf (ts : Nat) : Word64 := BitVec.ofInt 64 ((Config.epochMs : Int) + ts)

end Sys2Proof.Machine
end

