-- ==== Sys2Proof/WellFormed.lean ====
section
/-! DEFINITION. What makes an instruction and a build well formed. -/

namespace Sys2Proof

/-- Every instruction is well formed: a command word has no immediate and no register field whose range
could be broken (spec/30_encoding.md R62). -/
def Instr.wellFormed : Instr → Bool
  | .pack => true
  | .packf => true
  | .unpack => true
  | .tobytes => true
  | .frombytes => true

/-- The legal parameter range: the widths of R6, the alignment of BFPX_BASE of R41, and LATENCY of R121.
A build outside it is refused (R6; 93_implementation_defined.md I1). -/
abbrev Build.WellFormed (b : Build) : Prop :=
  (1 ≤ b.wT ∧ b.wT ≤ 62) ∧ (1 ≤ b.wR ∧ b.wR ≤ 64) ∧ b.base % 0x100 = 0 ∧ 1 ≤ b.latency

end Sys2Proof
end

