-- ==== Sys2Proof/Machine/Ops.lean ====
section
/-! DEFINITION. The named operations over the registers and the port: the register map
(spec/10_state.md R14), reads and writes of one register, the two ends of a command (`complete`, and
`raise`, which is how BFPX takes an error), free values, reset and power. -/

namespace Sys2Proof.Machine

/-! ### The register map (R14) -/

/-- The registers of the window. A group's registers are numbered from the lowest offset, so `wordIn 0` is
WORD_IN0, `msIn 0` is MS_IN_LO and `msIn 1` is MS_IN_HI. -/
inductive Reg where
  | cfg
  | epoch (j : Fin 2)
  | cmd
  | status
  | wordIn (j : Fin 4)
  | msIn (j : Fin 2)
  | tsIn (j : Fin 2)
  | rndIn (j : Fin 2)
  | bytesIn (j : Fin 4)
  | wordOut (j : Fin 4)
  | msOut (j : Fin 2)
  | tsOut (j : Fin 2)
  | rndOut (j : Fin 2)
  | bytesOut (j : Fin 4)
  deriving DecidableEq, Repr

/-- The access column of R14. -/
inductive RegAccess where
  | readOnly
  | readWrite
  | writeOnly
  deriving DecidableEq, Repr

/-- The offset of a register from BFPX_BASE (R14). -/
def regOffset : Reg → Nat
  | .cfg => 0x00
  | .epoch j => 0x08 + 4 * j
  | .cmd => 0x10
  | .status => 0x14
  | .wordIn j => 0x20 + 4 * j
  | .msIn j => 0x30 + 4 * j
  | .tsIn j => 0x38 + 4 * j
  | .rndIn j => 0x40 + 4 * j
  | .bytesIn j => 0x50 + 4 * j
  | .wordOut j => 0x60 + 4 * j
  | .msOut j => 0x70 + 4 * j
  | .tsOut j => 0x78 + 4 * j
  | .rndOut j => 0x80 + 4 * j
  | .bytesOut j => 0x90 + 4 * j

/-- The access a register allows (R14). -/
def regAccess : Reg → RegAccess
  | .cfg => .readOnly
  | .epoch _ => .readOnly
  | .cmd => .writeOnly
  | .status => .readOnly
  | .wordIn _ => .readWrite
  | .msIn _ => .readWrite
  | .tsIn _ => .readWrite
  | .rndIn _ => .readWrite
  | .bytesIn _ => .readWrite
  | .wordOut _ => .readOnly
  | .msOut _ => .readOnly
  | .tsOut _ => .readOnly
  | .rndOut _ => .readOnly
  | .bytesOut _ => .readOnly

/-- The rows of R14 from CFG to STATUS. -/
def controlRegs : List Reg := [.cfg, .epoch 0, .epoch 1, .cmd, .status]

/-- The rows of R14 that are operand registers. -/
def operandRegs : List Reg :=
  [.wordIn 0, .wordIn 1, .wordIn 2, .wordIn 3, .msIn 0, .msIn 1, .tsIn 0, .tsIn 1,
    .rndIn 0, .rndIn 1, .bytesIn 0, .bytesIn 1, .bytesIn 2, .bytesIn 3]

/-- The rows of R14 that are result registers. -/
def resultRegs : List Reg :=
  [.wordOut 0, .wordOut 1, .wordOut 2, .wordOut 3, .msOut 0, .msOut 1, .tsOut 0, .tsOut 1,
    .rndOut 0, .rndOut 1, .bytesOut 0, .bytesOut 1, .bytesOut 2, .bytesOut 3]

/-- The rows of R14, lowest offset first. -/
def allRegs : List Reg := controlRegs ++ operandRegs ++ resultRegs

/-- The register at an offset; none at a reserved offset (R14, R33). -/
def regAt (off : Nat) : Option Reg := allRegs.find? fun r => regOffset r == off

/-! ### Reads and writes of one register -/

/-- CFG: `W_T` in bits 7:0, `W_R` in 15:8, `RSV` in 23:16, bits 31:24 zero (R17). -/
def cfgWord (b : Build) : Word32 :=
  0#8 ++ BitVec.ofNat 8 b.rsv ++ BitVec.ofNat 8 b.wR ++ BitVec.ofNat 8 b.wT

/-- `x[EPOCH]`, the constant of R18. -/
def epochWord : Word64 := BitVec.ofNat 64 Config.epochMs

/-- `x[R]`, what a legal read of a register gives (R50). CMD stores nothing and reads 0 (R19). -/
def readReg (b : Build) (g : Regs) : Reg → Word32
  | .cfg => cfgWord b
  | .epoch j => groupReg epochWord j
  | .cmd => 0
  | .status => statusWord g.code
  | .wordIn j => groupReg g.wordIn j
  | .msIn j => groupReg g.msIn j
  | .tsIn j => groupReg g.tsIn j
  | .rndIn j => groupReg g.rndIn j
  | .bytesIn j => groupReg g.bytesIn j
  | .wordOut j => groupReg g.wordOut j
  | .msOut j => groupReg g.msOut j
  | .tsOut j => groupReg g.tsOut j
  | .rndOut j => groupReg g.rndOut j
  | .bytesOut j => groupReg g.bytesOut j

/-- What a legal bus write stores: all 32 bits into an operand register, nothing into a read-only
register (R51, R52). CMD stores nothing (R19); the command its write starts is `memWrite`'s. -/
def writeReg (g : Regs) (r : Reg) (v : Word32) : Regs :=
  match r with
  | .wordIn j => { g with wordIn := setGroupReg g.wordIn j v }
  | .msIn j => { g with msIn := setGroupReg g.msIn j v }
  | .tsIn j => { g with tsIn := setGroupReg g.tsIn j v }
  | .rndIn j => { g with rndIn := setGroupReg g.rndIn j v }
  | .bytesIn j => { g with bytesIn := setGroupReg g.bytesIn j v }
  | .cfg => g
  | .epoch _ => g
  | .cmd => g
  | .status => g
  | .wordOut _ => g
  | .msOut _ => g
  | .tsOut _ => g
  | .rndOut _ => g
  | .bytesOut _ => g

/-- `MemRead(BFPX_BASE + off, 4)`: the register at the offset, 0 at a reserved offset (R33, R50). -/
def memRead (s : State) (off : Nat) : Word32 :=
  match regAt off with
  | some r => readReg s.build s.regs r
  | none => 0

/-- The byte a host sees at byte offset `off` of the window: lane `off mod 4` of the register that holds
it (R45). It is a view of `memRead`; the bus has no byte access (R48). -/
def windowByte (s : State) (off : Nat) : Byte := byteLane (memRead s (off - off % 4)) (off % 4)

/-! ### The two ends of a command -/

/-- `complete`: STATUS.CODE becomes OK (00_scope.md section 5, 40_command_common.md R71). -/
def complete (g : Regs) : Regs := { g with code := codeBits .ok }

/-- `raise Status(c)`, taking an error: STATUS.CODE becomes the code and nothing else changes (R95). BFPX saves
nothing more and has no return from an error (R93, R101). -/
def raise (c : Code) (g : Regs) : Regs := { g with code := codeBits c }

/-- Run the body of a command on the registers, in one step (R69). A build outside the legal range is refused
(R6). -/
def runCommand (s : State) (body : Build → Regs → Regs) : Host.Outcome State Fault Refusal :=
  if s.build.WellFormed then .next { s with regs := body s.build s.regs }
  else .refused .illegalBuild

/-! ### The port -/

/-- Put an input before those already on their way. -/
def issue (e : Event) (s : State) : State := { s with pending := e :: s.pending }

/-- Record the bus's answer to an access. -/
def respond (x : Response) (s : State) : State := { s with response := some x }

/-- Record the answer once a write is done: the response comes after the command's results (R56). -/
def respondAfter (x : Response) : Host.Outcome State Fault Refusal → Host.Outcome State Fault Refusal
  | .next s => .next (respond x s)
  | .fault r => .fault r
  | .refused r => .refused r

/-- Free value number `k` from here on, as `n` bits. -/
def freeBits (s : State) (k n : Nat) : BitVec n := (Config.freeValue (s.draws + k)).setWidth n

/-- The `n` free values from here on are drawn. -/
def drew (n : Nat) (s : State) : State := { s with draws := s.draws + n }

/-- Answer an access whose data the spec leaves open: a read returns any value, a write returns no data. -/
def respondOpen (k : AccessKind) (x : Option Word32 → Response) (s : State) : State :=
  match k with
  | .read => drew 1 (respond (x (some (freeBits s 0 32))) s)
  | .write _ => respond (x none) s

/-- The address reaches BFPX (R41, R42). An access is placed by its start address alone, so one that starts below the
window and whose bytes reach into it is outside: DESIGN CHOICE (notes/assumptions/22.md). -/
abbrev InWindow (b : Build) (addr : Nat) : Prop := b.base ≤ addr ∧ addr < b.base + 0x100

/-- The access is legal: 32 bits wide, at a multiple of 4 (R48). -/
abbrev LegalAccess (a : Access) : Prop := a.size = 4 ∧ a.addr % 4 = 0

/-! ### Reset and power -/

/-- The reset input is asserted (R109). -/
def assertReset (s : State) : State := { s with phase := .inReset }

/-- The reset input is released: if it was asserted, every register holds its reset value from now on
(R109, R40). Releasing an input that is not asserted is no event (notes/assumptions/8.md). -/
def releaseReset (s : State) : State :=
  match s.phase with
  | .inReset => { s with phase := .running, regs := Regs.reset }
  | .running => s
  | .powerUp => s

/-- Registers of unspecified content, each one a free value (R110). -/
def freeRegs (s : State) : Regs :=
  { wordIn := freeBits s 0 128, msIn := freeBits s 1 64, tsIn := freeBits s 2 64,
    rndIn := freeBits s 3 64, bytesIn := freeBits s 4 128, wordOut := freeBits s 5 128,
    msOut := freeBits s 6 64, tsOut := freeBits s 7 64, rndOut := freeBits s 8 64,
    bytesOut := freeBits s 9 128, code := freeBits s 10 3 }

/-- The condition after power comes back: still in reset if the reset input is asserted, else not yet reset
(R110; notes/assumptions/8.md). -/
def phaseAfterPower : Phase → Phase
  | .inReset => .inReset
  | .running => .powerUp
  | .powerUp => .powerUp

/-- Power is lost and comes back: nothing is kept, and the registers are unspecified (R108, R110). -/
def powerCycle (s : State) : State :=
  drew 11 { s with regs := freeRegs s, phase := phaseAfterPower s.phase }

end Sys2Proof.Machine
end

