-- ==== Sys2Proof/Machine/BinaryForm.lean ====
section
/-! DEFINITION. The binary-form commands TOBYTES and FROMBYTES (spec/43_binary_form.md). -/

namespace Sys2Proof.Machine

/-- The body of TOBYTES: the 16 big-endian bytes of WORD_IN, whatever its reserved bits (R89). -/
def tobytesBody (_ : Build) (g : Regs) : Regs :=
  complete { g with bytesOut := bytesGroup (be16 g.wordIn) }

/-- The word FROMBYTES rebuilds from BYTES_IN, byte 0 most significant (R90). -/
def rebuiltWord (g : Regs) : Word128 := wordOfBe16 (byteLane g.bytesIn)

/-- The body of FROMBYTES: the rebuilt word, if its reserved bits are zero (R84, R90). -/
def frombytesBody (b : Build) (g : Regs) : Regs :=
  if ValidWord b (rebuiltWord g) then complete { g with wordOut := rebuiltWord g }
  else raise .invalidFormat g

/-- TOBYTES (R89). -/
def execTobytes (s : State) : Host.Outcome State Fault Refusal := runCommand s tobytesBody

/-- FROMBYTES (R90). -/
def execFrombytes (s : State) : Host.Outcome State Fault Refusal := runCommand s frombytesBody

end Sys2Proof.Machine
end

