-- ==== Sys2Proof/Machine/Pack.lean ====
section
/-! DEFINITION. The pack commands PACK and PACKF (spec/41_pack.md). -/

namespace Sys2Proof.Machine

/-- The pack step of both commands on the exact timestamp value `d`: the range check, then WORD_OUT
(R78, R79, R80). -/
def packField (d : Int) (b : Build) (g : Regs) : Regs :=
  if Representable b d then complete { g with wordOut := packWord b d.toNat g.rndIn }
  else raise .outOfRange g

/-- The body of PACK: the instant MS_IN, read as signed, minus EPOCH_MS with no wrap (R79). -/
def packBody (b : Build) (g : Regs) : Regs := packField (g.msIn.toInt - Config.epochMs) b g

/-- The body of PACKF: the timestamp field TS_IN, read as unsigned (R80). -/
def packfBody (b : Build) (g : Regs) : Regs := packField g.tsIn.toNat b g

/-- PACK (R79). -/
def execPack (s : State) : Host.Outcome State Fault Refusal := runCommand s packBody

/-- PACKF (R80). -/
def execPackf (s : State) : Host.Outcome State Fault Refusal := runCommand s packfBody

end Sys2Proof.Machine
end

