-- ==== Sys2Proof/Machine/Unpack.lean ====
section
/-! DEFINITION. The field isolation command UNPACK (spec/42_unpack.md). -/

namespace Sys2Proof.Machine

/-- The body of UNPACK: the validity check of WORD_IN, then its two fields and its instant (R84, R85). -/
def unpackBody (b : Build) (g : Regs) : Regs :=
  if ValidWord b g.wordIn then
    complete
      { g with
        tsOut := BitVec.ofNat 64 (timestampField b g.wordIn)
        rndOut := BitVec.ofNat 64 (randomField b g.wordIn)
        msOut := instantOf (timestampField b g.wordIn) }
  else raise .invalidFormat g

/-- UNPACK (R85). -/
def execUnpack (s : State) : Host.Outcome State Fault Refusal := runCommand s unpackBody

end Sys2Proof.Machine
end

