-- ==== Sys2Proof/Machine/Dispatch.lean ====
section
/-! DEFINITION. The meaning of each instruction (spec/40_command_common.md R71). -/

namespace Sys2Proof.Machine

/-- The match of the common frame of every command (R71). -/
def exec (i : Instr) (s : State) : Host.Outcome State Fault Refusal :=
  match i with
  | .pack => Sys2Proof.Machine.execPack s
  | .packf => Sys2Proof.Machine.execPackf s
  | .unpack => Sys2Proof.Machine.execUnpack s
  | .tobytes => Sys2Proof.Machine.execTobytes s
  | .frombytes => Sys2Proof.Machine.execFrombytes s

end Sys2Proof.Machine
end

