-- ==== Sys2Proof/Machine/Bus.lean ====
section
/-! DEFINITION. The bus port: a command word written to CMD, bus writes, legal and illegal accesses, and
the inputs of the block (spec/20_memory.md, 40_command_common.md R69 to R72, 70_reset_and_hazards.md). -/

namespace Sys2Proof.Machine

/-- `command(c)`: decode first; a reserved word raises UNSUPPORTED before any operand is read (R71,
R94, R99). -/
def command (c : Word32) (s : State) : Host.Outcome State Fault Refusal :=
  match decode c with
  | .error _ => runCommand s fun _ g => raise .unsupported g
  | .ok i => exec i s

/-- `MemWrite(BFPX_BASE + off, 4, v)`: CMD runs the command, an operand register stores the word, anything
else is ignored (R51, R52, R33). -/
def memWrite (off : Nat) (v : Word32) (s : State) : Host.Outcome State Fault Refusal :=
  match regAt off with
  | some r =>
    if regAccess r = .writeOnly then command v s
    else .next { s with regs := writeReg s.regs r v }
  | none => .next s

/-- A legal access at an address of the window (R50, R51, R56). -/
def legalAccess (a : Access) (s : State) : Host.Outcome State Fault Refusal :=
  match a.kind with
  | .read => .next (respond (.data (memRead s (a.addr - s.build.base))) s)
  | .write v => respondAfter .done (memWrite (a.addr - s.build.base) v s)

/-- An illegal access in the window: a bus error and no state change; what follows is BUS_ERROR_POLICY's
(R49, R98; U1, U2). -/
def illegalAccess (a : Access) (s : State) : Host.Outcome State Fault Refusal :=
  match s.build.busErrorPolicy with
  | .report => .next (respondOpen a.kind .busError s)
  | .faultProgram => .fault .busError

/-- One bus access. Outside the window it does not reach BFPX (R42). Inside, it is answered only when the block
has been reset and is not in reset (R109, R110; U3, U4). -/
def busAccess (a : Access) (s : State) : Host.Outcome State Fault Refusal :=
  if InWindow s.build a.addr then
    match s.phase with
    | .inReset => .refused .accessDuringReset
    | .powerUp => .refused .accessBeforeReset
    | .running => if LegalAccess a then legalAccess a s else illegalAccess a s
  else .next (respondOpen a.kind .elsewhere s)

/-- One input (R123). -/
def takeEvent (e : Event) (s : State) : Host.Outcome State Fault Refusal :=
  match e with
  | .access a => busAccess a s
  | .assertReset => .next (assertReset s)
  | .releaseReset => .next (releaseReset s)
  | .powerCycle => .next (powerCycle s)

/-- Take the next input on its way, one at a time and in order of arrival (R55). With none on its way nothing
changes: no state of BFPX moves by itself (R38, R104, R108). -/
def takeNext (s : State) : Host.Outcome State Fault Refusal :=
  match s.pending with
  | [] => .next s
  | e :: rest => takeEvent e { s with pending := rest }

/-- The bus write of the word `w` to CMD, the offset 0x10 of the window (R19, R69). -/
def cmdWrite (b : Build) (w : Word32) : Event :=
  .access { addr := b.base + regOffset .cmd, size := 4, kind := .write w }

end Sys2Proof.Machine
end

