-- ==== Sys2Proof/Machine/Step.lean ====
section
/-! DEFINITION. One step of the machine, and where the host places the next command word. -/

namespace Sys2Proof.Machine

/-- One step: the next input is taken. A build outside the legal range is refused (spec/00_scope.md R6). -/
def step (s : State) : Host.Outcome State Fault Refusal :=
  if s.build.WellFormed then takeNext s else .refused .illegalBuild

/-- `s` with the instruction whose bits are `w` as the next thing to run: BFPX fetches nothing, so this is a host
that writes the command word to CMD now, with the block out of reset (R35, R69; notes/assumptions/13.md). -/
def State.withFetchWord (s : State) (nbits w : Nat) : State :=
  issue (cmdWrite s.build (BitVec.ofNat 32 (w % 2 ^ nbits))) { s with phase := .running }

end Sys2Proof.Machine
end

