-- ==== Sys2Proof/Machine/HostProgram.lean ====
section
/-! DEFINITION. Host programs: the lines of spec/30_encoding.md R67, the pseudo-instructions of R68, and one
line of a run. The host is outside BFPX; each of its bus operations is one `step` of the block. -/

namespace Sys2Proof.Machine

/-- One line of a host program (R67). A register name stands for its offset, which a line may also give as a
number; `regOffset` is the table. -/
inductive Line where
  /-- `wr NAME, imm32`. -/
  | wr (off : Nat) (v : Word32)
  /-- `rd NAME`. -/
  | rd (off : Nat)
  /-- `rd NAME -> v`: as `rd`, and states that the rules give the value `v`. -/
  | rdIs (off : Nat) (v : Word32)
  /-- `pack`, `packf`, `unpack`, `tobytes`, `frombytes`. -/
  | run (i : Instr)
  /-- `cmd imm32`. -/
  | cmd (c : Word32)
  /-- `label:`. -/
  | label (l : String)
  /-- `jnz NAME, label`. -/
  | jnz (off : Nat) (l : String)
  /-- `jmp label`. -/
  | jmp (l : String)
  /-- `halt`. -/
  | halt
  /-- A write of the value the host read `k` reads before its latest one; `mov.out.in` is made of these (R68;
  DESIGN CHOICE: notes/assumptions/15.md). -/
  | wrRead (off : Nat) (k : Nat)
  deriving DecidableEq, Repr

/-- The pseudo-instructions of R68. -/
inductive Pseudo where
  | ldword (v : Word128)
  /-- `ldms v64`; a negative `v` is written as its two's-complement pattern. -/
  | ldms (v : Int)
  | ldts (v : Word64)
  | ldrnd (v : Word64)
  | ldbytes (b : Vector Byte 16)
  | rdword
  | rdfields
  | rdbytes
  | gen (ms : Int) (rnd : Word64)
  | movOutIn
  | chk
  deriving DecidableEq, Repr

/-- Writes of the registers of a 64-bit group, lowest offset first (R68). -/
def wrPair (r : Fin 2 → Reg) (v : Word64) : List Line :=
  [.wr (regOffset (r 0)) (groupReg v 0), .wr (regOffset (r 1)) (groupReg v 1)]

/-- Writes of the registers of a 128-bit group, lowest offset first (R68). -/
def wrQuad (r : Fin 4 → Reg) (v : Word128) : List Line :=
  [.wr (regOffset (r 0)) (groupReg v 0), .wr (regOffset (r 1)) (groupReg v 1),
    .wr (regOffset (r 2)) (groupReg v 2), .wr (regOffset (r 3)) (groupReg v 3)]

/-- Reads of the registers of a 64-bit group, lowest offset first (R68). -/
def rdPair (r : Fin 2 → Reg) : List Line := [.rd (regOffset (r 0)), .rd (regOffset (r 1))]

/-- Reads of the registers of a 128-bit group, lowest offset first (R68). -/
def rdQuad (r : Fin 4 → Reg) : List Line :=
  [.rd (regOffset (r 0)), .rd (regOffset (r 1)), .rd (regOffset (r 2)), .rd (regOffset (r 3))]

/-- The expansion of a pseudo-instruction (R68). -/
def expand : Pseudo → List Line
  | .ldword v => wrQuad .wordIn v
  | .ldms v => wrPair .msIn (BitVec.ofInt 64 v)
  | .ldts v => wrPair .tsIn v
  | .ldrnd v => wrPair .rndIn v
  | .ldbytes b => wrQuad .bytesIn (bytesGroup fun k => b.toList.getD k 0)
  | .rdword => rdQuad .wordOut
  | .rdfields => rdPair .tsOut ++ rdPair .rndOut ++ rdPair .msOut
  | .rdbytes => rdQuad .bytesOut
  | .gen ms rnd => wrPair .msIn (BitVec.ofInt 64 ms) ++ wrPair .rndIn rnd ++ [.run .pack]
  | .movOutIn =>
    rdQuad .wordOut ++
      [.wrRead (regOffset (.wordIn 0)) 3, .wrRead (regOffset (.wordIn 1)) 2,
        .wrRead (regOffset (.wordIn 2)) 1, .wrRead (regOffset (.wordIn 3)) 0]
  | .chk => [.rd (regOffset .status)]

/-- A run of a host program: the block, the program, the number of the line to run next, and the values
read so far, the latest first. -/
structure HostRun where
  block : State
  prog : List Line
  line : Nat
  reads : List Word32
  deriving DecidableEq, Repr

/-- A host program before its first line, on a block right after reset (95_test_vectors.md section 4). -/
def HostRun.start (b : Build) (prog : List Line) : HostRun :=
  { block := State.resetOf b, prog := prog, line := 0, reads := [] }

/-- The run has ended: the next line is `halt`, or there is none (R67, R122). -/
def ended (h : HostRun) : Bool :=
  match h.prog[h.line]? with
  | none => true
  | some .halt => true
  | some _ => false

/-- The value the host gets from a read, given the bus's answer. -/
def readValue : Response → Word32
  | .data v => v
  | .busError (some v) => v
  | .elsewhere (some v) => v
  | .done => 0
  | .busError none => 0
  | .elsewhere none => 0

/-- `MemRead` and `MemWrite` of the host at an offset: one 32-bit bus access at BFPX_BASE + off (R67). The access goes
before every input on its way, so nothing comes between two lines, those of one expansion among them: R55 leaves
that order to the platform, and this order is a DESIGN CHOICE (notes/assumptions/20.md). -/
def hostAccess (s : State) (off : Nat) (k : AccessKind) : Host.Outcome State Fault Refusal :=
  step (issue (.access { addr := s.build.base + off, size := 4, kind := k }) s)

/-- A write line: the access, then the next line. -/
def hostWrite (h : HostRun) (off : Nat) (v : Word32) : Host.Outcome HostRun Fault Refusal :=
  match hostAccess h.block off (.write v) with
  | .next s => .next { h with block := s, line := h.line + 1 }
  | .fault r => .fault r
  | .refused r => .refused r

/-- The line a label names; a run that goes to a label the program lacks is refused (R67). -/
def hostGoto (h : HostRun) (l : String) : Host.Outcome HostRun Fault Refusal :=
  match h.prog.findIdx? (· = .label l) with
  | some n => .next { h with line := n }
  | none => .refused (.undefinedLabel l)

/-- A read line: the access, then `after` of the value read on the run that has recorded it. -/
def hostRead (h : HostRun) (off : Nat) (after : Word32 → HostRun → Host.Outcome HostRun Fault Refusal) :
    Host.Outcome HostRun Fault Refusal :=
  match hostAccess h.block off .read with
  | .next s =>
    let v := readValue (s.response.getD .done)
    after v { h with block := s, reads := v :: h.reads }
  | .fault r => .fault r
  | .refused r => .refused r

/-- Go on at the next line. -/
def hostAdvance (h : HostRun) : Host.Outcome HostRun Fault Refusal := .next { h with line := h.line + 1 }

/-- One line of a run (R67). An ended run stays where it is (R122). -/
def hostStep (h : HostRun) : Host.Outcome HostRun Fault Refusal :=
  match h.prog[h.line]? with
  | none => .next h
  | some .halt => .next h
  | some (.label _) => hostAdvance h
  | some (.wr off v) => hostWrite h off v
  | some (.run i) => hostWrite h (regOffset .cmd) (encode i)
  | some (.cmd c) => hostWrite h (regOffset .cmd) c
  | some (.rd off) => hostRead h off fun _ h' => hostAdvance h'
  | some (.rdIs off _) => hostRead h off fun _ h' => hostAdvance h'
  | some (.jnz off l) => hostRead h off fun v h' => if v ≠ 0 then hostGoto h' l else hostAdvance h'
  | some (.jmp l) => hostGoto h l
  | some (.wrRead off k) =>
    match h.reads[k]? with
    | some v => hostWrite h off v
    | none => .refused .noValueRead

/-- `k` lines of a run. -/
def hostSteps : Nat → HostRun → Host.Outcome HostRun Fault Refusal
  | 0, h => .next h
  | k + 1, h =>
    match hostStep h with
    | .next h' => hostSteps k h'
    | .fault r => .fault r
    | .refused r => .refused r

/-- The value the rules give a 32-bit read at an offset: none where they give none, for an access that is illegal
(R49), outside the window (R42), or not answered (R6, R109, R110). -/
def ruleValue (s : State) (off : Nat) : Option Word32 :=
  if s.build.WellFormed ∧ s.phase = .running ∧ off < 0x100 ∧ off % 4 = 0 then some (memRead s off) else none

/-- What the line to run next states about the value it reads, if it is `rd NAME -> v`: that the rules give `v`
(R67). Where they give no value, no such line is true. -/
def lineClaim (h : HostRun) : Bool :=
  match h.prog[h.line]? with
  | some (.rdIs off v) => ruleValue h.block off == some v
  | _ => true

/-- The result of `rdword`, of the values read (R68). -/
def rdwordResult : List Word32 → Option Word128
  | w3 :: w2 :: w1 :: w0 :: _ => some (w3 ++ w2 ++ w1 ++ w0)
  | _ => none

/-- The result of `rdbytes`: the values of the four registers, from which byte `k` is `byteLane` (R16, R68). -/
def rdbytesResult (reads : List Word32) : Option (Nat → Byte) :=
  (rdwordResult reads).map byteLane

end Sys2Proof.Machine
end

