-- ==== Sys2Proof/Safety.lean ====
section
/-! DEFINITION. What counts as a safe run: when the block can answer, which results belong together, the
invariant of every step, and the host's duties at the port. -/

namespace Sys2Proof.Machine

/-- The block can answer an access: a legal build, out of reset, reset since power-up (spec/00_scope.md R6,
70_reset_and_hazards.md R109, R110). -/
abbrev Ready (s : State) : Prop := s.build.WellFormed ∧ s.phase = .running

/-- What R20 and R26 to R29 say of STATUS.CODE and the result registers, in any order of commands: CODE is
never 4 to 7, WORD_OUT is a valid identifier, the fields fit their widths, and the three UNPACK results are
the reset values or belong to one another (R118). -/
abbrev ResultsConsistent (b : Build) (g : Regs) : Prop :=
  g.code.toNat ≤ 3 ∧
  g.wordOut.toNat < 2 ^ (b.wT + b.wR) ∧
  g.tsOut.toNat < 2 ^ b.wT ∧
  g.rndOut.toNat < 2 ^ b.wR ∧
  (g.msOut.toInt = Config.epochMs + g.tsOut.toNat ∨ g.msOut = 0 ∧ g.tsOut = 0 ∧ g.rndOut = 0)

/-- The invariant every step keeps: a block that has been reset holds consistent results. Before the first reset
its registers are unspecified (R110), so nothing is said there. -/
abbrev Inv (s : State) : Prop := s.phase = .running → ResultsConsistent s.build s.regs

/-- The host's duty for an input (R123): no access in the window before the first reset or in reset, and
only legal accesses there. -/
def HostDuty (s : State) : Event → Prop
  | .access a => InWindow s.build a.addr → s.phase = .running ∧ LegalAccess a
  | .assertReset => True
  | .releaseReset => True
  | .powerCycle => True

end Sys2Proof.Machine
end

