-- ==== Sys2Proof/Certificates/Slice0/Obligations.lean ====
section
/-! DEFINITION. What the model is claimed to do, one statement each. Every number in a statement stands as the
spec writes it: EPOCH_MS is 1577836800000 (R7), the status codes are 0 to 3 (R93), the offsets are those of
R14. -/

open Sys2Proof Sys2Proof.Machine Host.Outcome

/-! ### Decoding and encoding (30_encoding.md) -/

/-- R65: the decoder on all `2^32` words. A word selects an operation exactly when it is that operation's word, all
32 bits of it; the words are 1 to 5 (R63). So decoding an encoded instruction gives it back, and no other word does. -/
def Obligations.DecodeAcceptsExactlyTheEncodings : Prop :=
  (∀ (c : Word32) (i : Instr), decode c = .ok i ↔ c = encode i) ∧
  (encode .pack).toNat = 1 ∧ (encode .packf).toNat = 2 ∧ (encode .unpack).toNat = 3 ∧
  (encode .tobytes).toNat = 4 ∧ (encode .frombytes).toNat = 5

/-- R64: a word is UNSUPPORTED exactly when a bit of 31:4 is 1 or OP is 0x0 or 0x6 to 0xF. -/
def Obligations.ReservedWordsAreExactlyTheRest : Prop :=
  ∀ c : Word32, (∃ r, decode c = .error r) ↔
    (∃ j, 4 ≤ j ∧ j < 32 ∧ c.getLsbD j = true) ∨ c.toNat % 16 = 0 ∨ 6 ≤ c.toNat % 16

/-- R63, and the words of vectors C1 to C5: words written out bit by bit. -/
def Obligations.TableWordsDecode : Prop :=
  decode 0b00000000000000000000000000000001#32 = .ok .pack ∧
  decode 0b00000000000000000000000000000010#32 = .ok .packf ∧
  decode 0b00000000000000000000000000000011#32 = .ok .unpack ∧
  decode 0b00000000000000000000000000000100#32 = .ok .tobytes ∧
  decode 0b00000000000000000000000000000101#32 = .ok .frombytes ∧
  decode 0b00000000000000000000000000000000#32 = .error .reservedOpcode ∧
  decode 0b00000000000000000000000000000110#32 = .error .reservedOpcode ∧
  decode 0b00000000000000000000000000001111#32 = .error .reservedOpcode ∧
  decode 0b00000000000000000000000000010001#32 = .error .reservedBits ∧
  decode 0b10000000000000000000000000000011#32 = .error .reservedBits

/-! ### What each command does (41_pack.md, 42_unpack.md, 43_binary_form.md) -/

/-- R79: PACK, whole. The next state is given on every MS_IN and RND_IN: the packed word and OK where
`0 <= sint64(MS_IN) - EPOCH_MS < 2^W_T`, else CODE = 2 and nothing else. -/
def Obligations.PackWritesWordOrOutOfRange : Prop :=
  decode 0x00000001#32 = .ok .pack ∧
  ∀ s : State, s.build.WellFormed →
    exec .pack s = next { s with regs :=
      if 0 ≤ s.regs.msIn.toInt - 1577836800000 ∧ s.regs.msIn.toInt - 1577836800000 < 2 ^ s.build.wT then
        { s.regs with
          wordOut := BitVec.ofNat 128 ((s.regs.msIn.toInt - 1577836800000).toNat * 2 ^ s.build.wR +
            s.regs.rndIn.toNat % 2 ^ s.build.wR)
          code := 0 }
      else { s.regs with code := 2 } }

/-- R80: PACKF, whole. -/
def Obligations.PackfWritesWordOrOutOfRange : Prop :=
  decode 0x00000002#32 = .ok .packf ∧
  ∀ s : State, s.build.WellFormed →
    exec .packf s = next { s with regs :=
      if s.regs.tsIn.toNat < 2 ^ s.build.wT then
        { s.regs with
          wordOut := BitVec.ofNat 128 (s.regs.tsIn.toNat * 2 ^ s.build.wR +
            s.regs.rndIn.toNat % 2 ^ s.build.wR)
          code := 0 }
      else { s.regs with code := 2 } }

/-- R85: UNPACK, whole. The reserved bits are those at and above `W_T + W_R`. -/
def Obligations.UnpackIsolatesFieldsOrInvalid : Prop :=
  decode 0x00000003#32 = .ok .unpack ∧
  ∀ s : State, s.build.WellFormed →
    ((∀ j, s.build.wT + s.build.wR ≤ j → j < 128 → s.regs.wordIn.getLsbD j = false) →
      exec .unpack s = next { s with regs := { s.regs with
        tsOut := BitVec.ofNat 64 (s.regs.wordIn.toNat / 2 ^ s.build.wR)
        rndOut := BitVec.ofNat 64 (s.regs.wordIn.toNat % 2 ^ s.build.wR)
        msOut := BitVec.ofInt 64 (1577836800000 + (s.regs.wordIn.toNat / 2 ^ s.build.wR : Nat) : Int)
        code := 0 } }) ∧
    ((∃ j, s.build.wT + s.build.wR ≤ j ∧ j < 128 ∧ s.regs.wordIn.getLsbD j = true) →
      exec .unpack s = next { s with regs := { s.regs with code := 1 } })

/-- R89: TOBYTES, whole: byte `k` of BYTES_OUT, bits `8k+7:8k` of the group (R16), is bits `127-8k:120-8k` of
WORD_IN, for every WORD_IN. -/
def Obligations.TobytesWritesBigEndianBytes : Prop :=
  decode 0x00000004#32 = .ok .tobytes ∧
  ∀ s : State, s.build.WellFormed →
    ∃ g : Word128, exec .tobytes s = next { s with regs := { s.regs with bytesOut := g, code := 0 } } ∧
      ∀ k < 16, g.extractLsb' (8 * k) 8 = s.regs.wordIn.extractLsb' (120 - 8 * k) 8

/-- R90: FROMBYTES, whole. The rebuilt word is the sum of the bytes, byte 0 most significant. -/
def Obligations.FrombytesWritesWordOrInvalid : Prop :=
  decode 0x00000005#32 = .ok .frombytes ∧
  ∀ s : State, s.build.WellFormed →
    let w := ∑ k ∈ Finset.range 16, (s.regs.bytesIn.extractLsb' (8 * k) 8).toNat * 2 ^ (8 * (15 - k))
    exec .frombytes s = next { s with regs :=
      if w < 2 ^ (s.build.wT + s.build.wR) then { s.regs with wordOut := BitVec.ofNat 128 w, code := 0 }
      else { s.regs with code := 1 } }

/-- R64, R94: a reserved command word, written to CMD, sets CODE = 3 and changes nothing else of BFPX. -/
def Obligations.ReservedWordOnlySetsUnsupported : Prop :=
  ∀ (s : State) (c : Word32), Ready s →
    ((∃ j, 4 ≤ j ∧ j < 32 ∧ c.getLsbD j = true) ∨ c.toNat % 16 = 0 ∨ 6 ≤ c.toNat % 16) →
    step (issue (.access ⟨s.build.base + 0x10, 4, .write c⟩) s) =
      next { s with regs := { s.regs with code := 3 }, response := some .done }

/-! ### A step runs the decoded instruction -/

/-- R65, R69, R71: when the next input is a 32-bit write of a word to CMD and the word decodes to `i`, the step is
`exec i` on the state without that input; if it answers a next state, the normal response is recorded
after it. Nothing else is added: BFPX has no program counter (R35). -/
def Obligations.StepRunsTheDecodedInstruction : Prop :=
  ∀ (s : State) (c : Word32) (i : Instr) (rest : List Event), Ready s → decode c = .ok i →
    s.pending = .access ⟨s.build.base + 0x10, 4, .write c⟩ :: rest →
    step s = match exec i { s with pending := rest } with
      | next t => next { t with response := some .done }
      | fault r => fault r
      | refused r => refused r

/-! ### The common frame of the commands (40_command_common.md, 60_exceptions.md) -/

/-- R31, R73: what PACK, PACKF and FROMBYTES leave unchanged: every register but WORD_OUT and CODE, everything
beside the registers, and every byte of the window but those of WORD_OUT and STATUS. -/
def Obligations.WordOutCommandsFrame : Prop :=
  ∀ (i : Instr) (s t : State), i = .pack ∨ i = .packf ∨ i = .frombytes → exec i s = next t →
    t = { s with regs := { s.regs with wordOut := t.regs.wordOut, code := t.regs.code } } ∧
    ∀ off, ¬ (0x60 ≤ off ∧ off < 0x70) → ¬ (0x14 ≤ off ∧ off < 0x18) → windowByte t off = windowByte s off

/-- R31, R73: what UNPACK leaves unchanged. -/
def Obligations.UnpackFrame : Prop :=
  ∀ s t : State, exec .unpack s = next t →
    t = { s with regs := { s.regs with
      msOut := t.regs.msOut, tsOut := t.regs.tsOut, rndOut := t.regs.rndOut, code := t.regs.code } } ∧
    ∀ off, ¬ (0x70 ≤ off ∧ off < 0x88) → ¬ (0x14 ≤ off ∧ off < 0x18) → windowByte t off = windowByte s off

/-- R31, R73: what TOBYTES leaves unchanged. -/
def Obligations.TobytesFrame : Prop :=
  ∀ s t : State, exec .tobytes s = next t →
    t = { s with regs := { s.regs with bytesOut := t.regs.bytesOut, code := t.regs.code } } ∧
    ∀ off, ¬ (0x90 ≤ off ∧ off < 0xA0) → ¬ (0x14 ≤ off ∧ off < 0x18) → windowByte t off = windowByte s off

/-- R72, R95: a command that ends with an error code writes nothing but STATUS.CODE. -/
def Obligations.FailedCommandWritesOnlyCode : Prop :=
  ∀ (i : Instr) (s t : State), exec i s = next t → t.regs.code ≠ 0 →
    t = { s with regs := { s.regs with code := t.regs.code } }

/-- R73: the codes each command can report. -/
def Obligations.CodesEachCommandReports : Prop :=
  ∀ (i : Instr) (s t : State), exec i s = next t →
    match i with
    | .pack => t.regs.code = 0 ∨ t.regs.code = 2
    | .packf => t.regs.code = 0 ∨ t.regs.code = 2
    | .unpack => t.regs.code = 0 ∨ t.regs.code = 1
    | .tobytes => t.regs.code = 0
    | .frombytes => t.regs.code = 0 ∨ t.regs.code = 1

/-- R70, R74: a command is a function of the operand registers and the command word. Two blocks of one build that
hold the same operands, and any results and any CODE, report the same code, and each result is written with the
same value in both or in neither. -/
def Obligations.CommandDependsOnOperandsOnly : Prop :=
  ∀ (i : Instr) (s s' : State), s.build.WellFormed → s'.build = s.build →
    s'.regs.wordIn = s.regs.wordIn → s'.regs.msIn = s.regs.msIn → s'.regs.tsIn = s.regs.tsIn →
    s'.regs.rndIn = s.regs.rndIn → s'.regs.bytesIn = s.regs.bytesIn →
    ∃ t t', exec i s = next t ∧ exec i s' = next t' ∧ t'.regs.code = t.regs.code ∧
      (t'.regs.wordOut = t.regs.wordOut ∨
        t.regs.wordOut = s.regs.wordOut ∧ t'.regs.wordOut = s'.regs.wordOut) ∧
      (t'.regs.msOut = t.regs.msOut ∧ t'.regs.tsOut = t.regs.tsOut ∧ t'.regs.rndOut = t.regs.rndOut ∨
        (t.regs.msOut = s.regs.msOut ∧ t.regs.tsOut = s.regs.tsOut ∧ t.regs.rndOut = s.regs.rndOut) ∧
        t'.regs.msOut = s'.regs.msOut ∧ t'.regs.tsOut = s'.regs.tsOut ∧ t'.regs.rndOut = s'.regs.rndOut) ∧
      (t'.regs.bytesOut = t.regs.bytesOut ∨
        t.regs.bytesOut = s.regs.bytesOut ∧ t'.regs.bytesOut = s'.regs.bytesOut)

/-- R69, R77: the write of any word to CMD completes in one step with the normal response; no command word makes
the block hang or stop. -/
def Obligations.EveryCommandWordCompletes : Prop :=
  ∀ (s : State) (c : Word32), Ready s →
    ∃ t, step (issue (.access ⟨s.build.base + 0x10, 4, .write c⟩) s) = next t ∧ t.response = some .done ∧
      t.pending = s.pending ∧ t.phase = .running

/-! ### Properties of the identifier word (00_scope.md, 41_pack.md to 43_binary_form.md) -/

/-- R3, R4: a word with zero reserved bits is its timestamp field times `2^W_R` plus its random field, and the
two fields are below `2^W_T` and `2^W_R`. -/
def Obligations.ValidWordIsItsTwoFields : Prop :=
  ∀ (b : Build) (w : Word128), b.WellFormed → ValidWord b w →
    w.toNat = timestampField b w * 2 ^ b.wR + randomField b w ∧
      timestampField b w < 2 ^ b.wT ∧ randomField b w < 2 ^ b.wR

/-- R13: the packing is order-preserving. -/
def Obligations.ValidWordsOrderByTimestamp : Prop :=
  ∀ (b : Build) (v w : Word128), b.WellFormed → ValidWord b v → ValidWord b w →
    (timestampField b v < timestampField b w → v.toNat < w.toNat) ∧
    (timestampField b v = timestampField b w → (v.toNat < w.toNat ↔ randomField b v < randomField b w))

/-- R81: PACK is PACKF applied to `delta`, as the 64-bit pattern of the exact difference; outside the range both
give OUT_OF_RANGE. -/
def Obligations.PackIsPackfOfDelta : Prop :=
  ∀ s : State, s.build.WellFormed →
    ∃ t t', exec .pack s = next t ∧
      exec .packf { s with regs := { s.regs with
        tsIn := BitVec.ofInt 64 (s.regs.msIn.toInt - 1577836800000) } } = next t' ∧
      t.regs.wordOut = t'.regs.wordOut ∧ t.regs.code = t'.regs.code ∧
      t.regs.code = if 0 ≤ s.regs.msIn.toInt - 1577836800000 ∧
        s.regs.msIn.toInt - 1577836800000 < 2 ^ s.build.wT then 0 else 2

/-- R82: PACK is monotonic in the instant, whatever the random bits. -/
def Obligations.PackIsMonotonic : Prop :=
  ∀ s s' : State, s.build.WellFormed → s'.build = s.build →
    0 ≤ s.regs.msIn.toInt - 1577836800000 → s.regs.msIn.toInt < s'.regs.msIn.toInt →
    s'.regs.msIn.toInt - 1577836800000 < 2 ^ s.build.wT →
    ∃ t t', exec .pack s = next t ∧ exec .pack s' = next t' ∧ t.regs.code = 0 ∧ t'.regs.code = 0 ∧
      t.regs.wordOut.toNat < t'.regs.wordOut.toNat

/-- R83: every word PACK or PACKF writes has zero reserved bits, the checked timestamp value as its timestamp
field, and the low `W_R` bits of RND_IN as its random field. -/
def Obligations.PackedWordsAreValid : Prop :=
  ∀ (i : Instr) (s t : State), i = .pack ∨ i = .packf → exec i s = next t → t.regs.code = 0 →
    (∀ j, s.build.wT + s.build.wR ≤ j → t.regs.wordOut.getLsbD j = false) ∧
    (timestampField s.build t.regs.wordOut : Int) =
      (if i = .pack then s.regs.msIn.toInt - 1577836800000 else s.regs.tsIn.toNat) ∧
    randomField s.build t.regs.wordOut = s.regs.rndIn.toNat % 2 ^ s.build.wR

/-- R86: UNPACK is the exact inverse of PACK, and of PACKF: on the word a success wrote, with any other registers
as they were, it gives the operands back. -/
def Obligations.UnpackInvertsPacking : Prop :=
  (∀ s t : State, exec .pack s = next t → t.regs.code = 0 →
    ∃ u, exec .unpack { t with regs := { t.regs with wordIn := t.regs.wordOut } } = next u ∧ u.regs.code = 0 ∧
      u.regs.msOut = s.regs.msIn ∧ (u.regs.tsOut.toNat : Int) = s.regs.msIn.toInt - 1577836800000 ∧
      u.regs.rndOut.toNat = s.regs.rndIn.toNat % 2 ^ s.build.wR) ∧
  (∀ s t : State, exec .packf s = next t → t.regs.code = 0 →
    ∃ u, exec .unpack { t with regs := { t.regs with wordIn := t.regs.wordOut } } = next u ∧ u.regs.code = 0 ∧
      u.regs.tsOut = s.regs.tsIn)

/-- R87: after a successful UNPACK, MS_OUT read as signed is exactly `ts + EPOCH_MS`, and positive. -/
def Obligations.UnpackInstantFits : Prop :=
  ∀ s t : State, exec .unpack s = next t → t.regs.code = 0 →
    t.regs.msOut.toInt = 1577836800000 + t.regs.tsOut.toNat ∧ 0 < t.regs.msOut.toInt ∧
      t.regs.tsOut.toNat ≤ 2 ^ s.build.wT - 1 ∧ 2 ^ s.build.wT - 1 ≤ 2 ^ 62 - 1 ∧
      t.regs.msOut.toInt < 2 ^ 62 + 2 ^ 41

/-- R88: packing the isolated fields again gives the word back, and no other pair of fields packs to it. -/
def Obligations.RepackGivesTheWordBack : Prop :=
  ∀ s t : State, exec .unpack s = next t → t.regs.code = 0 →
    ∃ u, exec .packf { t with regs := { t.regs with tsIn := t.regs.tsOut, rndIn := t.regs.rndOut } } = next u ∧
      u.regs.code = 0 ∧ u.regs.wordOut = s.regs.wordIn ∧
      ∀ (ts : Nat) (r : Word64), ts < 2 ^ s.build.wT → r.toNat < 2 ^ s.build.wR →
        packWord s.build ts r = s.regs.wordIn → ts = t.regs.tsOut.toNat ∧ r = t.regs.rndOut

/-- R91: the binary form round-trips, from a valid word and from accepted bytes. -/
def Obligations.BinaryFormRoundTrips : Prop :=
  (∀ s t : State, ValidWord s.build s.regs.wordIn → exec .tobytes s = next t →
    ∃ u, exec .frombytes { t with regs := { t.regs with bytesIn := t.regs.bytesOut } } = next u ∧
      u.regs.wordOut = s.regs.wordIn ∧ u.regs.code = 0) ∧
  (∀ s t : State, exec .frombytes s = next t → t.regs.code = 0 →
    ∃ u, exec .tobytes { t with regs := { t.regs with wordIn := t.regs.wordOut } } = next u ∧
      u.regs.bytesOut = s.regs.bytesIn)

/-- R92: each BYTES_OUT register is a WORD_IN register with its bytes reversed, and each WORD_OUT register of a
successful FROMBYTES a BYTES_IN register with its bytes reversed. Registers are read at their offsets. -/
def Obligations.BytesRegistersAreSwappedWordRegisters : Prop :=
  (∀ s t : State, exec .tobytes s = next t → ∀ j < 4,
    memRead t (0x90 + 4 * j) = bswap32 (memRead s (0x20 + 4 * (3 - j)))) ∧
  (∀ s t : State, exec .frombytes s = next t → t.regs.code = 0 → ∀ j < 4,
    memRead t (0x60 + 4 * j) = bswap32 (memRead s (0x50 + 4 * (3 - j))))

/-! ### The register window (10_state.md, 20_memory.md) -/

/-- R15, R20: each group is the concatenation of its registers at the offsets of R14, the lowest offset least
significant; STATUS reads CODE in bits 2:0 and zero above; CMD reads 0. -/
def Obligations.GroupsReadAsConcatenations : Prop :=
  ∀ s : State,
    memRead s 0x2C ++ memRead s 0x28 ++ memRead s 0x24 ++ memRead s 0x20 = s.regs.wordIn ∧
    memRead s 0x34 ++ memRead s 0x30 = s.regs.msIn ∧
    memRead s 0x3C ++ memRead s 0x38 = s.regs.tsIn ∧
    memRead s 0x44 ++ memRead s 0x40 = s.regs.rndIn ∧
    memRead s 0x5C ++ memRead s 0x58 ++ memRead s 0x54 ++ memRead s 0x50 = s.regs.bytesIn ∧
    memRead s 0x6C ++ memRead s 0x68 ++ memRead s 0x64 ++ memRead s 0x60 = s.regs.wordOut ∧
    memRead s 0x74 ++ memRead s 0x70 = s.regs.msOut ∧
    memRead s 0x7C ++ memRead s 0x78 = s.regs.tsOut ∧
    memRead s 0x84 ++ memRead s 0x80 = s.regs.rndOut ∧
    memRead s 0x9C ++ memRead s 0x98 ++ memRead s 0x94 ++ memRead s 0x90 = s.regs.bytesOut ∧
    memRead s 0x0C ++ memRead s 0x08 = 0x0000016F5E66E800#64 ∧
    memRead s 0x14 = 0#29 ++ s.regs.code ∧
    memRead s 0x10 = 0

/-- R16, R45: byte `k` of the BYTES groups stands at byte address `0x50 + k`, or `0x90 + k`, of the window, and is
bits `8k+7:8k` of the group. -/
def Obligations.BytesGroupsAreInStreamOrder : Prop :=
  ∀ (s : State) (k : Nat), k < 16 →
    windowByte s (0x50 + k) = s.regs.bytesIn.extractLsb' (8 * k) 8 ∧
    windowByte s (0x90 + k) = s.regs.bytesOut.extractLsb' (8 * k) 8

/-- R17: CFG reports `W_T`, `W_R` and `128 - W_T - W_R` in bits 7:0, 15:8 and 23:16, reads 0 above, and
ignores writes. -/
def Obligations.CfgReportsTheBuild : Prop :=
  ∀ s : State, s.build.WellFormed →
    ((memRead s 0x00).extractLsb' 0 8).toNat = s.build.wT ∧
    ((memRead s 0x00).extractLsb' 8 8).toNat = s.build.wR ∧
    ((memRead s 0x00).extractLsb' 16 8).toNat = 128 - s.build.wT - s.build.wR ∧
    (memRead s 0x00).extractLsb' 24 8 = 0 ∧
    (s.build.wT = 48 → s.build.wR = 58 → memRead s 0x00 = 0x00163A30) ∧
    (s.build.wT = 43 → s.build.wR = 62 → memRead s 0x00 = 0x00173E2B) ∧
    ∀ v, s.phase = .running →
      step (issue (.access ⟨s.build.base + 0x00, 4, .write v⟩) s) = next { s with response := some .done }

/-- R50, R53: a legal read answers the register's value and changes no state: every field but the answer is as it
was. -/
def Obligations.LegalReadChangesNothing : Prop :=
  ∀ (s : State) (off : Nat), Ready s → off < 0x100 → off % 4 = 0 →
    step (issue (.access ⟨s.build.base + off, 4, .read⟩) s) =
      next { s with response := some (.data (memRead s off)) }

/-- R51: a legal write to an operand register stores all 32 bits there: it reads back, every other register of the
window reads as before, and no result, CODE or other field changes. -/
def Obligations.OperandWriteStoresTheWord : Prop :=
  ∀ (s : State) (off : Nat) (v : Word32), Ready s →
    (0x20 ≤ off ∧ off < 0x48 ∨ 0x50 ≤ off ∧ off < 0x60) → off % 4 = 0 →
    ∃ t, step (issue (.access ⟨s.build.base + off, 4, .write v⟩) s) = next t ∧
      memRead t off = v ∧ (∀ off', off' % 4 = 0 → off' ≠ off → memRead t off' = memRead s off') ∧
      t.response = some .done ∧ t.pending = s.pending ∧ t.phase = s.phase ∧ t.build = s.build ∧
      t.draws = s.draws ∧ t.regs.wordOut = s.regs.wordOut ∧ t.regs.msOut = s.regs.msOut ∧
      t.regs.tsOut = s.regs.tsOut ∧ t.regs.rndOut = s.regs.rndOut ∧ t.regs.bytesOut = s.regs.bytesOut ∧
      t.regs.code = s.regs.code

/-- R52: a legal write to a read-only register is ignored, with the normal response. -/
def Obligations.ReadOnlyWriteIsIgnored : Prop :=
  ∀ (s : State) (off : Nat) (v : Word32), Ready s →
    (off = 0x00 ∨ off = 0x08 ∨ off = 0x0C ∨ off = 0x14 ∨ 0x60 ≤ off ∧ off < 0x88 ∨ 0x90 ≤ off ∧ off < 0xA0) →
    off % 4 = 0 →
    step (issue (.access ⟨s.build.base + off, 4, .write v⟩) s) = next { s with response := some .done }

/-- R33: a reserved offset reads 0 and ignores writes. -/
def Obligations.ReservedOffsetReadsZeroIgnoresWrites : Prop :=
  ∀ (s : State) (off : Nat) (v : Word32), Ready s →
    (off = 0x04 ∨ off = 0x18 ∨ off = 0x1C ∨ off = 0x48 ∨ off = 0x4C ∨ off = 0x88 ∨ off = 0x8C ∨
      0xA0 ≤ off ∧ off < 0x100) → off % 4 = 0 →
    step (issue (.access ⟨s.build.base + off, 4, .read⟩) s) = next { s with response := some (.data 0) } ∧
    step (issue (.access ⟨s.build.base + off, 4, .write v⟩) s) = next { s with response := some .done }

/-- R49: an access of the window that is not 32 bits wide or not aligned is a bus error that changes no register and
starts no command, where BUS_ERROR_POLICY lets the host go on; with the other policy the host's program is
faulted (R98; the two policies are the model's, notes/assumptions/11.md). Nothing is said of the data. -/
def Obligations.IllegalAccessIsBusError : Prop :=
  ∀ (s : State) (a : Access), Ready s → s.build.base ≤ a.addr → a.addr < s.build.base + 0x100 →
    a.size ≠ 4 ∨ a.addr % 4 ≠ 0 →
    (s.build.busErrorPolicy = .report → ∃ x d,
      step (issue (.access a) s) = next { s with response := some (.busError x), draws := d }) ∧
    (s.build.busErrorPolicy = .faultProgram → step (issue (.access a) s) = fault .busError)

/-- R42: an access outside the window does not reach BFPX, in any condition of the block: no register and no
condition changes. That the step then answers a next state with an `elsewhere` response is the model's choice
(notes/assumptions/10.md), and so is that an access is placed by its start address alone
(notes/assumptions/22.md). -/
def Obligations.OutsideTheWindowNothingChanges : Prop :=
  ∀ (s : State) (a : Access), s.build.WellFormed → a.addr < s.build.base ∨ s.build.base + 0x100 ≤ a.addr →
    ∃ x d, step (issue (.access a) s) = next { s with response := some (.elsewhere x), draws := d }

/-- R115: a group of which one register has been written is read as the mixture: the new low half and the old high
half of the 64-bit operand groups, at the write itself. -/
def Obligations.TornGroupHoldsTheMixture : Prop :=
  ∀ (s : State) (v : Word32), Ready s →
    step (issue (.access ⟨s.build.base + 0x30, 4, .write v⟩) s) = next { s with
      regs := { s.regs with msIn := s.regs.msIn.extractLsb' 32 32 ++ v }, response := some .done } ∧
    step (issue (.access ⟨s.build.base + 0x3C, 4, .write v⟩) s) = next { s with
      regs := { s.regs with tsIn := v ++ s.regs.tsIn.extractLsb' 0 32 }, response := some .done }

/-! ### Whole-machine rules -/

/-- R31: a step changes an operand register only by a legal write to an operand register, by the release of reset,
or by a loss of power. That the release of reset changes the registers and its assertion changes none is the
model's choice, which R31 does not say (notes/assumptions/9.md). -/
def Obligations.OperandsChangeOnlyByWritesAndReset : Prop :=
  ∀ (s t : State) (e : Event) (rest : List Event), s.pending = e :: rest → step s = next t →
    ¬ (t.regs.wordIn = s.regs.wordIn ∧ t.regs.msIn = s.regs.msIn ∧ t.regs.tsIn = s.regs.tsIn ∧
      t.regs.rndIn = s.regs.rndIn ∧ t.regs.bytesIn = s.regs.bytesIn) →
    (∃ off v, e = .access ⟨s.build.base + off, 4, .write v⟩ ∧ off % 4 = 0 ∧
      (0x20 ≤ off ∧ off < 0x48 ∨ 0x50 ≤ off ∧ off < 0x60)) ∨ e = .releaseReset ∨ e = .powerCycle

/-- R32: a step changes a result register or CODE only by a 32-bit write to CMD, by the release of reset, or by a
loss of power. That the release of reset changes the registers and its assertion changes none is the model's
choice: R32 says only reset (notes/assumptions/9.md). -/
def Obligations.ResultsChangeOnlyByCommandsAndReset : Prop :=
  ∀ (s t : State) (e : Event) (rest : List Event), s.pending = e :: rest → step s = next t →
    ¬ (t.regs.wordOut = s.regs.wordOut ∧ t.regs.msOut = s.regs.msOut ∧ t.regs.tsOut = s.regs.tsOut ∧
      t.regs.rndOut = s.regs.rndOut ∧ t.regs.bytesOut = s.regs.bytesOut ∧ t.regs.code = s.regs.code) →
    (∃ c, e = .access ⟨s.build.base + 0x10, 4, .write c⟩) ∨ e = .releaseReset ∨ e = .powerCycle

/-- R5: no step changes the build. R55: a step takes exactly the oldest input, and with none on its way nothing
changes. The list of inputs is the model's own (notes/assumptions/2.md). -/
def Obligations.StepTakesOneInputAndKeepsTheBuild : Prop :=
  ∀ s t : State, step s = next t →
    t.build = s.build ∧ t.pending = s.pending.tail ∧ (s.pending = [] → t = s)

/-- R121: no rule depends on LATENCY: two builds that differ in it alone make the same step. -/
def Obligations.LatencyHasNoEffect : Prop :=
  ∀ (s : State) (n : Nat), s.build.WellFormed → 1 ≤ n →
    step { s with build := { s.build with latency := n } } =
      match step s with
      | next t => next { t with build := { t.build with latency := n } }
      | fault r => fault r
      | refused r => refused r

/-- R41: where the window stands does not matter: a legal access moved with the window makes the same step. -/
def Obligations.WindowMovesWithItsBase : Prop :=
  ∀ (s : State) (base off : Nat) (k : AccessKind), Ready s → base % 0x100 = 0 → off < 0x100 → off % 4 = 0 →
    step (issue (.access ⟨base + off, 4, k⟩) { s with build := { s.build with base := base } }) =
      match step (issue (.access ⟨s.build.base + off, 4, k⟩) s) with
      | next t => next { t with build := { t.build with base := base } }
      | fault r => fault r
      | refused r => refused r

/-- The headline: every step keeps the invariant that STATUS.CODE is never 4 to 7 (R20), WORD_OUT is a valid
identifier (R26), TS_OUT and RND_OUT fit their fields (R28, R29), and MS_OUT is TS_OUT plus EPOCH_MS unless
all three are 0 (R27, R40, R118). In every state, reached or not; nothing is said before the first reset
(R110). -/
def Obligations.EveryStepKeepsResultsConsistent : Prop :=
  ∀ s t : State, Inv s → step s = next t → Inv t

/-- The invariant holds right after reset, in every build. -/
def Obligations.ResetResultsAreConsistent : Prop :=
  ∀ b : Build, Inv (State.resetOf b)

/-- R6: a build outside the legal range is refused. R6 does not say where: that every step and every `exec` of it is
refused is the model's choice (notes/assumptions/6.md). -/
def Obligations.IllegalBuildIsRefused : Prop :=
  ∀ (s : State) (i : Instr),
    s.build.wT < 1 ∨ 62 < s.build.wT ∨ s.build.wR < 1 ∨ 64 < s.build.wR →
    step s = refused .illegalBuild ∧ exec i s = refused .illegalBuild

/-- Where the host keeps its duties (R109, R110, R123) and makes no illegal access, every step answers a next
state: no access is refused, and no fault stops the run. That an access outside the window answers a next state
is the model's choice: R42 leaves the answer to the platform (notes/assumptions/10.md), and so is that an access is
placed by its start address alone (notes/assumptions/22.md). -/
def Obligations.DutifulHostNeverStopsTheBlock : Prop :=
  ∀ (s : State) (e : Event), s.build.WellFormed → HostDuty s e → ∃ t, step (issue e s) = next t

/-! ### Reset and power (70_reset_and_hazards.md) -/

/-- R40, R109: asserting and releasing reset, in any condition, leaves every operand and result register 0, CODE OK
and the block running; the register values before it do not matter. -/
def Obligations.ResetGivesTheResetValues : Prop :=
  ∀ s : State, s.build.WellFormed →
    ∃ t u, step (issue .assertReset s) = next t ∧ t.phase = .inReset ∧
      step (issue .releaseReset t) = next u ∧ u.phase = .running ∧ u.build = s.build ∧
      u.regs = { wordIn := 0, msIn := 0, tsIn := 0, rndIn := 0, bytesIn := 0, wordOut := 0, msOut := 0,
                 tsOut := 0, rndOut := 0, bytesOut := 0, code := 0 }

/-- R109, R110: while reset is asserted, and between power-up and the first reset, an access in the window is not
answered (the model refuses it: 93_implementation_defined.md U3, U4; notes/assumptions/7.md). -/
def Obligations.NoAccessInResetOrBeforeIt : Prop :=
  ∀ (s : State) (a : Access), s.build.WellFormed → InWindow s.build a.addr →
    (s.phase = .inReset → step (issue (.access a) s) = refused .accessDuringReset) ∧
    (s.phase = .powerUp → step (issue (.access a) s) = refused .accessBeforeReset) ∧
    ∃ t, step (issue .powerCycle s) = next t ∧ t.phase ≠ .running

/-- R40, R18, vector R1: right after reset in the default build every offset reads 0, but CFG and EPOCH. -/
def Obligations.WindowAfterReset : Prop :=
  memRead State.reset 0x00 = 0x00163A30 ∧ memRead State.reset 0x08 = 0x5E66E800 ∧
  memRead State.reset 0x0C = 0x0000016F ∧
  ∀ off, off ≠ 0x00 → off ≠ 0x08 → off ≠ 0x0C → memRead State.reset off = 0

/-- R113: the commands right after reset, in every legal build. -/
def Obligations.CommandsRightAfterReset : Prop :=
  ∀ b : Build, b.WellFormed →
    exec .pack (State.resetOf b) = next { State.resetOf b with regs := { Regs.reset with code := 2 } } ∧
    exec .packf (State.resetOf b) = next (State.resetOf b) ∧
    exec .unpack (State.resetOf b) =
      next { State.resetOf b with regs := { Regs.reset with msOut := 0x0000016F5E66E800 } } ∧
    exec .tobytes (State.resetOf b) = next (State.resetOf b) ∧
    exec .frombytes (State.resetOf b) = next (State.resetOf b)

/-- R8: the last representable instant of both layouts packs, and the next one does not. -/
def Obligations.HorizonOfBothLayouts : Prop :=
  ∀ s : State, s.build.WellFormed →
    (s.build.wT = 48 →
      (s.regs.msIn = 283052813510655#64 → ∃ t, exec .pack s = next t ∧ t.regs.code = 0) ∧
      (s.regs.msIn = 283052813510656#64 → ∃ t, exec .pack s = next t ∧ t.regs.code = 2)) ∧
    (s.build.wT = 43 →
      (s.regs.msIn = 10373929822207#64 → ∃ t, exec .pack s = next t ∧ t.regs.code = 0) ∧
      (s.regs.msIn = 10373929822208#64 → ∃ t, exec .pack s = next t ∧ t.regs.code = 2))

/-! ### Host programs (30_encoding.md R67, R68) -/

/-- R68: the expansions of `ldword`, `ldms`, `ldts`, `ldrnd` and `ldbytes`, run from any ready block, put their
value into their group, change no other register, and go on after their last line. That no access of another agent
and no reset comes between the lines is the model's choice (R55; notes/assumptions/20.md). -/
def Obligations.LoadPseudosSetTheirGroup : Prop :=
  ∀ (h : HostRun) (pre post : List Line), Ready h.block → h.line = pre.length →
    (∀ v, h.prog = pre ++ expand (.ldword v) ++ post → ∃ t,
      hostSteps 4 h = next { h with block := t, line := h.line + 4 } ∧
      t.regs = { h.block.regs with wordIn := v }) ∧
    (∀ v, h.prog = pre ++ expand (.ldms v) ++ post → ∃ t,
      hostSteps 2 h = next { h with block := t, line := h.line + 2 } ∧
      t.regs = { h.block.regs with msIn := BitVec.ofInt 64 v }) ∧
    (∀ v, h.prog = pre ++ expand (.ldts v) ++ post → ∃ t,
      hostSteps 2 h = next { h with block := t, line := h.line + 2 } ∧
      t.regs = { h.block.regs with tsIn := v }) ∧
    (∀ v, h.prog = pre ++ expand (.ldrnd v) ++ post → ∃ t,
      hostSteps 2 h = next { h with block := t, line := h.line + 2 } ∧
      t.regs = { h.block.regs with rndIn := v }) ∧
    (∀ b : Vector Byte 16, h.prog = pre ++ expand (.ldbytes b) ++ post → ∃ t g,
      hostSteps 4 h = next { h with block := t, line := h.line + 4 } ∧
      t.regs = { h.block.regs with bytesIn := g } ∧ ∀ k (hk : k < 16), g.extractLsb' (8 * k) 8 = b[k])

/-- R68: `mov.out.in` copies WORD_OUT to WORD_IN through the host and changes no other register. That no access of
another agent and no reset comes between the lines is the model's choice (R55; notes/assumptions/20.md), and so are
the lines that write the values read back (notes/assumptions/15.md). -/
def Obligations.MovOutInCopiesTheWord : Prop :=
  ∀ (h : HostRun) (pre post : List Line), Ready h.block → h.line = pre.length →
    h.prog = pre ++ expand .movOutIn ++ post → ∃ h',
      hostSteps 8 h = next h' ∧ h'.line = h.line + 8 ∧
      h'.block.regs = { h.block.regs with wordIn := h.block.regs.wordOut } ∧
      rdwordResult h'.reads = some h.block.regs.wordOut

/-- R67: `jnz` reads the register and goes to the label where the value is not zero, else to the next line; `jmp`
goes to the label without a bus access. R67 does not say which line a label that stands twice names: that it is the
first one is the model's choice (notes/assumptions/15.md). -/
def Obligations.JumpsFollowTheValueRead : Prop :=
  ∀ (h : HostRun) (off n : Nat) (l : String), Ready h.block → off < 0x100 → off % 4 = 0 →
    h.prog[n]? = some (.label l) → (∀ m < n, h.prog[m]? ≠ some (.label l)) →
    (h.prog[h.line]? = some (.jnz off l) → ∃ t,
      hostStep h = next { h with
        block := t, line := if memRead h.block off ≠ 0 then n else h.line + 1,
        reads := memRead h.block off :: h.reads } ∧ t.regs = h.block.regs) ∧
    (h.prog[h.line]? = some (.jmp l) → hostStep h = next { h with line := n })

/-- R122: a run that has reached `halt`, or its last line, has ended: no access follows. That the run stays as it
is, and does not stop with a fault, is the model's choice (notes/assumptions/15.md). -/
def Obligations.EndedRunStays : Prop :=
  ∀ h : HostRun, ended h = true → hostStep h = next h

/-- R67: `rd NAME -> v` states that the rules give the value `v`. Where the statement is true, the line reads `v` and
goes on; where the rules give no value, of an offset outside the window, misaligned, or of a block that is not ready,
it is false. That the line runs whether or not its statement is true is the model's choice
(notes/assumptions/15.md). -/
def Obligations.StatedReadsGiveTheirValue : Prop :=
  ∀ (h : HostRun) (off : Nat) (v : Word32), h.prog[h.line]? = some (.rdIs off v) →
    (lineClaim h = true → hostStep h = next { h with
      block := { h.block with response := some (.data v) }, line := h.line + 1, reads := v :: h.reads }) ∧
    (0x100 ≤ off ∨ off % 4 ≠ 0 ∨ ¬ Ready h.block → lineClaim h = false)
end

