-- ==== Sys2Proof/Laws/Operands.lean ====
section
/-! SUPPORT. What the operand forms compute, in arithmetic: slices, fields, the pack formula, the registers
of a group, the bytes of a word. -/

namespace Sys2Proof.Machine

/-- EPOCH_MS as the number of R7, among integers. -/
theorem epochMs_cast : (Config.epochMs : Int) = 1577836800000 := rfl

/-! ### Slices, validity and fields -/

theorem slice_toNat {n : Nat} (v : BitVec n) (hi lo : Nat) :
    slice v hi lo = v.toNat / 2 ^ lo % 2 ^ (hi + 1 - lo) := by
  rw [slice, Nat.shiftRight_eq_div_pow]

theorem land_mask (v n : Nat) : v &&& mask n = v % 2 ^ n := Nat.and_two_pow_sub_one_eq_mod v n

/-- A word is valid when it is below `2^(W_T+W_R)`. -/
theorem validWord_iff {b : Build} (h : b.wT + b.wR ≤ 128) (w : Word128) :
    ValidWord b w ↔ w.toNat < 2 ^ (b.wT + b.wR) := by
  have hw : w.toNat / 2 ^ (b.wT + b.wR) < 2 ^ (128 - (b.wT + b.wR)) := by
    rw [Nat.div_lt_iff_lt_mul (by positivity), ← Nat.pow_add, Nat.sub_add_cancel h]
    exact w.isLt
  rw [ValidWord, slice_toNat, Nat.mod_eq_of_lt hw, Nat.div_eq_zero_iff]
  simp

/-- A bit vector is below `2^n` when its bits from `n` on are zero. -/
theorem toNat_lt_iff_bits {m : Nat} (w : BitVec m) (n : Nat) :
    w.toNat < 2 ^ n ↔ ∀ j, n ≤ j → j < m → w.getLsbD j = false := by
  constructor
  · intro h j hj _
    rw [BitVec.getLsbD, Nat.testBit_lt_two_pow (h.trans_le (Nat.pow_le_pow_right (by decide) hj))]
  · intro h
    refine Nat.lt_pow_two_of_testBit _ fun j hj => ?_
    by_cases hm : j < m
    · exact h j hj hm
    · exact BitVec.getLsbD_of_ge w j (by omega)

theorem randomField_eq {b : Build} (h : 1 ≤ b.wR) (w : Word128) :
    randomField b w = w.toNat % 2 ^ b.wR := by
  rw [randomField, slice_toNat, pow_zero, Nat.div_one]
  congr 2; omega

theorem timestampField_eq {b : Build} (h : 1 ≤ b.wR) (w : Word128) :
    timestampField b w = w.toNat / 2 ^ b.wR % 2 ^ b.wT := by
  rw [timestampField, slice_toNat]
  congr 2; omega

/-- In a valid word the timestamp field is all that stands above the random field. -/
theorem timestampField_of_valid {b : Build} (h : 1 ≤ b.wR) {w : Word128}
    (hw : w.toNat < 2 ^ (b.wT + b.wR)) : timestampField b w = w.toNat / 2 ^ b.wR := by
  rw [timestampField_eq h, Nat.mod_eq_of_lt]
  rwa [Nat.div_lt_iff_lt_mul (by positivity), ← Nat.pow_add]

/-! ### The pack formula -/

theorem fields_lt {d r t w : Nat} (hd : d < 2 ^ t) (hr : r < 2 ^ w) : d * 2 ^ w + r < 2 ^ (t + w) :=
  calc d * 2 ^ w + r < (d + 1) * 2 ^ w := by rw [Nat.add_one_mul]; omega
    _ ≤ 2 ^ t * 2 ^ w := Nat.mul_le_mul_right _ hd
    _ = 2 ^ (t + w) := (Nat.pow_add ..).symm

/-- The packed value in arithmetic. -/
theorem packWord_toNat {b : Build} (h : b.wT + b.wR ≤ 128) {d : Nat} (hd : d < 2 ^ b.wT) (r : Word64) :
    (packWord b d r).toNat = d * 2 ^ b.wR + r.toNat % 2 ^ b.wR := by
  have hr : r.toNat % 2 ^ b.wR < 2 ^ b.wR := Nat.mod_lt _ (by positivity)
  have hlt := (fields_lt hd hr).trans_le (Nat.pow_le_pow_right (by decide) h)
  rw [packWord, land_mask, ← Nat.shiftLeft_add_eq_or_of_lt hr, Nat.shiftLeft_eq, BitVec.toNat_ofNat,
    Nat.mod_eq_of_lt hlt]

theorem packWord_lt {b : Build} (h : b.wT + b.wR ≤ 128) {d : Nat} (hd : d < 2 ^ b.wT) (r : Word64) :
    (packWord b d r).toNat < 2 ^ (b.wT + b.wR) := by
  rw [packWord_toNat h hd]
  exact fields_lt hd (Nat.mod_lt _ (by positivity))

theorem packWord_div {b : Build} (h : b.wT + b.wR ≤ 128) {d : Nat} (hd : d < 2 ^ b.wT) (r : Word64) :
    (packWord b d r).toNat / 2 ^ b.wR = d := by
  rw [packWord_toNat h hd, Nat.mul_comm, Nat.mul_add_div (by positivity),
    Nat.div_eq_of_lt (Nat.mod_lt _ (by positivity)), Nat.add_zero]

theorem packWord_mod {b : Build} (h : b.wT + b.wR ≤ 128) {d : Nat} (hd : d < 2 ^ b.wT) (r : Word64) :
    (packWord b d r).toNat % 2 ^ b.wR = r.toNat % 2 ^ b.wR := by
  rw [packWord_toNat h hd, Nat.mul_comm, Nat.mul_add_mod, Nat.mod_mod]

/-- The instant of a field that fits 62 bits, read as signed. -/
theorem instantOf_toInt {ts : Nat} (h : ts < 2 ^ 62) : (instantOf ts).toInt = Config.epochMs + ts := by
  rw [instantOf, BitVec.toInt_ofInt]
  simp only [Config.epochMs]
  exact Int.bmod_eq_of_le (by omega) (by omega)

/-! ### The registers of a group -/

theorem getLsbD_setGroupReg {n : Nat} (g : BitVec n) (j : Nat) (v : Word32) (i : Nat) (hi : i < n) :
    (setGroupReg g j v).getLsbD i =
      if 32 * j ≤ i ∧ i < 32 * j + 32 then v.getLsbD (i - 32 * j) else g.getLsbD i := by
  have e : i - 32 * j < n := by omega
  simp only [setGroupReg, BitVec.getLsbD_or, BitVec.getLsbD_and, BitVec.getLsbD_not, BitVec.getLsbD_shiftLeft,
    BitVec.getLsbD_setWidth, BitVec.getLsbD_allOnes, hi, e, decide_true, Bool.true_and]
  by_cases h1 : i < 32 * j
  · simp [h1, Nat.not_le.mpr h1]
  · by_cases h2 : i < 32 * j + 32
    · have : i - 32 * j < 32 := by omega
      simp [h1, h2, this, Nat.not_lt.mp h1]
    · have : ¬ i - 32 * j < 32 := by omega
      have e3 : 32 ≤ i - 32 * j := by omega
      simp [h1, h2, this, BitVec.getLsbD_of_ge v (i - 32 * j) e3]

/-- The register just written reads back (R51). -/
theorem groupReg_setGroupReg {n : Nat} (g : BitVec n) (j : Nat) (v : Word32) (h : 32 * j + 32 ≤ n) :
    groupReg (setGroupReg g j v) j = v := by
  ext i hi
  simp only [groupReg, BitVec.getElem_extractLsb']
  rw [getLsbD_setGroupReg _ _ _ _ (by omega)]
  simp [hi]

/-- The other registers of the group keep their value. -/
theorem groupReg_setGroupReg_ne {n : Nat} (g : BitVec n) {j k : Nat} (v : Word32) (h : k ≠ j)
    (hk : 32 * k + 32 ≤ n) : groupReg (setGroupReg g j v) k = groupReg g k := by
  ext i hi
  simp only [groupReg, BitVec.getElem_extractLsb']
  rw [getLsbD_setGroupReg _ _ _ _ (by omega), if_neg (by omega)]

/-- A 64-bit group is the concatenation of its registers (R15). -/
theorem pair_concat (g : Word64) : groupReg g 1 ++ groupReg g 0 = g := by
  ext i hi
  simp only [groupReg, BitVec.getElem_append, BitVec.getElem_extractLsb']
  split
  · simp [BitVec.getLsbD_eq_getElem hi]
  · rw [show 32 * 1 + (i - 32) = i by omega, BitVec.getLsbD_eq_getElem hi]

/-- A 128-bit group is the concatenation of its registers (R15). -/
theorem quad_concat (g : Word128) : groupReg g 3 ++ groupReg g 2 ++ groupReg g 1 ++ groupReg g 0 = g := by
  ext i hi
  simp only [groupReg, BitVec.getElem_append, BitVec.getElem_extractLsb']
  split
  · simp [BitVec.getLsbD_eq_getElem hi]
  · split
    · rw [show 32 * 1 + (i - 32) = i by omega, BitVec.getLsbD_eq_getElem hi]
    · split
      · rw [show 32 * 2 + (i - 32 - 32) = i by omega, BitVec.getLsbD_eq_getElem hi]
      · rw [show 32 * 3 + (i - 32 - 32 - 32) = i by omega, BitVec.getLsbD_eq_getElem hi]

/-- A 64-bit group whose two registers have been written in offset order holds the value (R68). -/
theorem setGroupReg_pair (g v : Word64) : setGroupReg (setGroupReg g 0 (groupReg v 0)) 1 (groupReg v 1) = v := by
  rw [← pair_concat (setGroupReg _ 1 _), groupReg_setGroupReg _ _ _ (by omega),
    groupReg_setGroupReg_ne _ _ (by omega) (by omega), groupReg_setGroupReg _ _ _ (by omega), pair_concat]

/-- A 128-bit group whose four registers have been written in offset order holds the value (R68). -/
theorem setGroupReg_quad (g v : Word128) :
    setGroupReg (setGroupReg (setGroupReg (setGroupReg g 0 (groupReg v 0)) 1 (groupReg v 1)) 2 (groupReg v 2)) 3
      (groupReg v 3) = v := by
  rw [← quad_concat (setGroupReg _ 3 _)]
  simp only [groupReg_setGroupReg, groupReg_setGroupReg_ne, ne_eq, Nat.reduceEqDiff, not_false_eq_true,
    Nat.reduceLeDiff, Nat.reduceMul, Nat.reduceAdd, le_refl, OfNat.zero_ne_ofNat, OfNat.one_ne_ofNat,
    zero_ne_one]
  exact quad_concat v

/-! ### The bytes of a word -/

/-- Byte `k` of the BYTES group built from `b` is `b k` (R16). -/
theorem byteLane_bytesGroup (b : Nat → Byte) {k : Nat} (hk : k < 16) : byteLane (bytesGroup b) k = b k := by
  ext i hi
  interval_cases k <;>
    simp only [byteLane, bytesGroup, BitVec.getElem_extractLsb', BitVec.getLsbD_append] <;>
    simp +arith [hi]

theorem byteLane_getElem {n : Nat} (g : BitVec n) (k i : Nat) (hi : i < 8) :
    (byteLane g k)[i] = g.getLsbD (8 * k + i) := by simp [byteLane]

/-- Two 128-bit values with the same bytes are the same. -/
theorem eq_of_byteLane_eq {g h : Word128} (e : ∀ k < 16, byteLane g k = byteLane h k) : g = h := by
  ext i hi
  have := congrArg (fun x : Byte => x.getLsbD (i % 8)) (e (i / 8) (by omega))
  simpa [byteLane, Nat.mod_lt, Nat.div_add_mod, hi] using this

/-- The bytes of a big-endian word stand in the reverse order in a BYTES group. -/
theorem wordOfBe16_eq (b : Nat → Byte) : wordOfBe16 b = bytesGroup fun k => b (15 - k) := rfl

theorem be16_eq (w : Word128) {k : Nat} (hk : k < 16) : be16 w k = byteLane w (15 - k) := by
  rw [be16, byteLane, show 120 - 8 * k = 8 * (15 - k) by omega]

/-- Byte lane `k` of the rebuilt word is byte `15 - k` of the binary form (R90). -/
theorem byteLane_wordOfBe16 (b : Nat → Byte) {k : Nat} (hk : k < 16) :
    byteLane (wordOfBe16 b) k = b (15 - k) := by rw [wordOfBe16_eq, byteLane_bytesGroup _ hk]

/-- Byte lane `k` of the BYTES group of a word is byte lane `15 - k` of the word (R89). -/
theorem byteLane_bytesGroup_be16 (w : Word128) {k : Nat} (hk : k < 16) :
    byteLane (bytesGroup (be16 w)) k = byteLane w (15 - k) := by
  rw [byteLane_bytesGroup _ hk, be16_eq w hk]

/-- The binary form of a word gives the word back. -/
theorem wordOfBe16_bytesGroup (w : Word128) : wordOfBe16 (byteLane (bytesGroup (be16 w))) = w := by
  refine eq_of_byteLane_eq fun k hk => ?_
  rw [byteLane_wordOfBe16 _ hk, byteLane_bytesGroup_be16 w (by omega), show 15 - (15 - k) = k by omega]

/-- The bytes of a binary form come back from the word they give. -/
theorem bytesGroup_wordOfBe16 (g : Word128) : bytesGroup (be16 (wordOfBe16 (byteLane g))) = g := by
  refine eq_of_byteLane_eq fun k hk => ?_
  rw [byteLane_bytesGroup_be16 _ hk, byteLane_wordOfBe16 _ (by omega), show 15 - (15 - k) = k by omega]

/-- A number is the sum of its bytes, the least significant first. -/
theorem sum_bytes_mod (v n : Nat) :
    ∑ k ∈ Finset.range n, v / 2 ^ (8 * k) % 2 ^ 8 * 2 ^ (8 * k) = v % 2 ^ (8 * n) := by
  induction n with
  | zero => simp [Nat.mod_one]
  | succ n ih =>
    rw [Finset.sum_range_succ, ih, show 8 * (n + 1) = 8 * n + 8 by ring, Nat.pow_add, Nat.mod_mul]
    ring

theorem byteLane_toNat {n : Nat} (g : BitVec n) (k : Nat) : (byteLane g k).toNat = g.toNat / 2 ^ (8 * k) % 2 ^ 8 := by
  rw [byteLane, BitVec.extractLsb'_toNat, Nat.shiftRight_eq_div_pow]

/-- The rebuilt word is the sum of its big-endian bytes (R90). -/
theorem wordOfBe16_toNat (b : Nat → Byte) :
    (wordOfBe16 b).toNat = ∑ k ∈ Finset.range 16, (b k).toNat * 2 ^ (8 * (15 - k)) := by
  rw [← Finset.sum_range_reflect, ← Nat.mod_eq_of_lt (wordOfBe16 b).isLt, ← sum_bytes_mod _ 16]
  refine Finset.sum_congr rfl fun k hk => ?_
  have hk := Finset.mem_range.mp hk
  rw [← byteLane_toNat, byteLane_wordOfBe16 b hk, show 16 - 1 - k = 15 - k by omega,
    show 15 - (15 - k) = k by omega]

/-- Two registers with the same four bytes are the same. -/
theorem eq_of_byteLane_eq_word32 {g h : Word32} (e : ∀ k < 4, byteLane g k = byteLane h k) : g = h := by
  ext i hi
  have := congrArg (fun x : Byte => x.getLsbD (i % 8)) (e (i / 8) (by omega))
  simpa [byteLane, Nat.mod_lt, Nat.div_add_mod, hi] using this

/-- Byte lane `k` of register `j` is byte lane `4*j + k` of the group (R16). -/
theorem byteLane_groupReg {n : Nat} (g : BitVec n) (j : Nat) {k : Nat} (hk : k < 4) :
    byteLane (groupReg g j) k = byteLane g (4 * j + k) := by
  ext i hi
  simp only [byteLane_getElem, groupReg, BitVec.getLsbD_extractLsb']
  rw [show 32 * j + (8 * k + i) = 8 * (4 * j + k) + i by omega]
  simp [show 8 * k + i < 32 by omega]

/-- `bswap32` reverses the four bytes (R92). -/
theorem byteLane_bswap32 (v : Word32) {k : Nat} (hk : k < 4) : byteLane (bswap32 v) k = byteLane v (3 - k) := by
  ext i hi
  interval_cases k <;>
    simp only [byteLane, bswap32, BitVec.getElem_extractLsb', BitVec.getLsbD_append] <;>
    simp +arith [hi]

end Sys2Proof.Machine
end

