-- ==== Sys2Proof/Laws/State.lean ====
section
/-! SUPPORT. One lemma per field for each update of the registers and of the state. -/

namespace Sys2Proof.Machine

/-! ### The two ends of a command change CODE only -/

@[simp] theorem complete_code (g : Regs) : (complete g).code = 0 := rfl
@[simp] theorem complete_wordIn (g : Regs) : (complete g).wordIn = g.wordIn := rfl
@[simp] theorem complete_msIn (g : Regs) : (complete g).msIn = g.msIn := rfl
@[simp] theorem complete_tsIn (g : Regs) : (complete g).tsIn = g.tsIn := rfl
@[simp] theorem complete_rndIn (g : Regs) : (complete g).rndIn = g.rndIn := rfl
@[simp] theorem complete_bytesIn (g : Regs) : (complete g).bytesIn = g.bytesIn := rfl
@[simp] theorem complete_wordOut (g : Regs) : (complete g).wordOut = g.wordOut := rfl
@[simp] theorem complete_msOut (g : Regs) : (complete g).msOut = g.msOut := rfl
@[simp] theorem complete_tsOut (g : Regs) : (complete g).tsOut = g.tsOut := rfl
@[simp] theorem complete_rndOut (g : Regs) : (complete g).rndOut = g.rndOut := rfl
@[simp] theorem complete_bytesOut (g : Regs) : (complete g).bytesOut = g.bytesOut := rfl

@[simp] theorem raise_code (c : Code) (g : Regs) : (raise c g).code = codeBits c := rfl
@[simp] theorem raise_wordIn (c : Code) (g : Regs) : (raise c g).wordIn = g.wordIn := rfl
@[simp] theorem raise_msIn (c : Code) (g : Regs) : (raise c g).msIn = g.msIn := rfl
@[simp] theorem raise_tsIn (c : Code) (g : Regs) : (raise c g).tsIn = g.tsIn := rfl
@[simp] theorem raise_rndIn (c : Code) (g : Regs) : (raise c g).rndIn = g.rndIn := rfl
@[simp] theorem raise_bytesIn (c : Code) (g : Regs) : (raise c g).bytesIn = g.bytesIn := rfl
@[simp] theorem raise_wordOut (c : Code) (g : Regs) : (raise c g).wordOut = g.wordOut := rfl
@[simp] theorem raise_msOut (c : Code) (g : Regs) : (raise c g).msOut = g.msOut := rfl
@[simp] theorem raise_tsOut (c : Code) (g : Regs) : (raise c g).tsOut = g.tsOut := rfl
@[simp] theorem raise_rndOut (c : Code) (g : Regs) : (raise c g).rndOut = g.rndOut := rfl
@[simp] theorem raise_bytesOut (c : Code) (g : Regs) : (raise c g).bytesOut = g.bytesOut := rfl

@[simp] theorem codeBits_ok : codeBits .ok = 0 := rfl
@[simp] theorem codeBits_invalidFormat : codeBits .invalidFormat = 1 := rfl
@[simp] theorem codeBits_outOfRange : codeBits .outOfRange = 2 := rfl
@[simp] theorem codeBits_unsupported : codeBits .unsupported = 3 := rfl

/-! ### Updates of the state -/

@[simp] theorem issue_regs (e : Event) (s : State) : (issue e s).regs = s.regs := rfl
@[simp] theorem issue_phase (e : Event) (s : State) : (issue e s).phase = s.phase := rfl
@[simp] theorem issue_build (e : Event) (s : State) : (issue e s).build = s.build := rfl
@[simp] theorem issue_pending (e : Event) (s : State) : (issue e s).pending = e :: s.pending := rfl
@[simp] theorem issue_response (e : Event) (s : State) : (issue e s).response = s.response := rfl
@[simp] theorem issue_draws (e : Event) (s : State) : (issue e s).draws = s.draws := rfl

@[simp] theorem respond_regs (x : Response) (s : State) : (respond x s).regs = s.regs := rfl
@[simp] theorem respond_phase (x : Response) (s : State) : (respond x s).phase = s.phase := rfl
@[simp] theorem respond_build (x : Response) (s : State) : (respond x s).build = s.build := rfl
@[simp] theorem respond_pending (x : Response) (s : State) : (respond x s).pending = s.pending := rfl
@[simp] theorem respond_response (x : Response) (s : State) : (respond x s).response = some x := rfl
@[simp] theorem respond_draws (x : Response) (s : State) : (respond x s).draws = s.draws := rfl

@[simp] theorem drew_regs (n : Nat) (s : State) : (drew n s).regs = s.regs := rfl
@[simp] theorem drew_phase (n : Nat) (s : State) : (drew n s).phase = s.phase := rfl
@[simp] theorem drew_build (n : Nat) (s : State) : (drew n s).build = s.build := rfl
@[simp] theorem drew_pending (n : Nat) (s : State) : (drew n s).pending = s.pending := rfl
@[simp] theorem drew_response (n : Nat) (s : State) : (drew n s).response = s.response := rfl
@[simp] theorem drew_draws (n : Nat) (s : State) : (drew n s).draws = s.draws + n := rfl

@[simp] theorem assertReset_regs (s : State) : (assertReset s).regs = s.regs := rfl
@[simp] theorem assertReset_phase (s : State) : (assertReset s).phase = .inReset := rfl
@[simp] theorem assertReset_build (s : State) : (assertReset s).build = s.build := rfl
@[simp] theorem assertReset_pending (s : State) : (assertReset s).pending = s.pending := rfl
@[simp] theorem assertReset_response (s : State) : (assertReset s).response = s.response := rfl
@[simp] theorem assertReset_draws (s : State) : (assertReset s).draws = s.draws := rfl

@[simp] theorem releaseReset_build (s : State) : (releaseReset s).build = s.build := by
  unfold releaseReset; split <;> rfl
@[simp] theorem releaseReset_pending (s : State) : (releaseReset s).pending = s.pending := by
  unfold releaseReset; split <;> rfl
@[simp] theorem releaseReset_response (s : State) : (releaseReset s).response = s.response := by
  unfold releaseReset; split <;> rfl
@[simp] theorem releaseReset_draws (s : State) : (releaseReset s).draws = s.draws := by
  unfold releaseReset; split <;> rfl
theorem releaseReset_of_inReset {s : State} (h : s.phase = .inReset) :
    releaseReset s = { s with phase := .running, regs := Regs.reset } := by
  unfold releaseReset; simp [h]
theorem releaseReset_of_not_inReset {s : State} (h : s.phase ≠ .inReset) : releaseReset s = s := by
  unfold releaseReset; split <;> simp_all

@[simp] theorem powerCycle_regs (s : State) : (powerCycle s).regs = freeRegs s := rfl
@[simp] theorem powerCycle_phase (s : State) : (powerCycle s).phase = phaseAfterPower s.phase := rfl
@[simp] theorem powerCycle_build (s : State) : (powerCycle s).build = s.build := rfl
@[simp] theorem powerCycle_pending (s : State) : (powerCycle s).pending = s.pending := rfl
@[simp] theorem powerCycle_response (s : State) : (powerCycle s).response = s.response := rfl
@[simp] theorem powerCycle_draws (s : State) : (powerCycle s).draws = s.draws + 11 := rfl

theorem phaseAfterPower_ne_running (p : Phase) : phaseAfterPower p ≠ .running := by cases p <;> simp [phaseAfterPower]

@[simp] theorem respondOpen_regs (k : AccessKind) (x : Option Word32 → Response) (s : State) :
    (respondOpen k x s).regs = s.regs := by cases k <;> rfl
@[simp] theorem respondOpen_phase (k : AccessKind) (x : Option Word32 → Response) (s : State) :
    (respondOpen k x s).phase = s.phase := by cases k <;> rfl
@[simp] theorem respondOpen_build (k : AccessKind) (x : Option Word32 → Response) (s : State) :
    (respondOpen k x s).build = s.build := by cases k <;> rfl
@[simp] theorem respondOpen_pending (k : AccessKind) (x : Option Word32 → Response) (s : State) :
    (respondOpen k x s).pending = s.pending := by cases k <;> rfl

end Sys2Proof.Machine
end

