-- ==== Sys2Proof/Laws/Ops.lean ====
section
/-! SUPPORT. What the shared operations of Machine/Ops.lean can do: the register map, reads and writes of one
register, and the frame of a command. -/

namespace Sys2Proof.Machine

/-! ### The register map -/

/-- The register at a register's offset is that register (R14). -/
@[simp] theorem regAt_regOffset (r : Reg) : regAt (regOffset r) = some r := by
  cases r with
  | cfg => rfl
  | cmd => rfl
  | status => rfl
  | epoch j => fin_cases j <;> rfl
  | wordIn j => fin_cases j <;> rfl
  | msIn j => fin_cases j <;> rfl
  | tsIn j => fin_cases j <;> rfl
  | rndIn j => fin_cases j <;> rfl
  | bytesIn j => fin_cases j <;> rfl
  | wordOut j => fin_cases j <;> rfl
  | msOut j => fin_cases j <;> rfl
  | tsOut j => fin_cases j <;> rfl
  | rndOut j => fin_cases j <;> rfl
  | bytesOut j => fin_cases j <;> rfl

theorem regOffset_of_regAt {off : Nat} {r : Reg} (h : regAt off = some r) : regOffset r = off := by
  simpa using List.find?_some h

theorem regAt_eq_none_iff (off : Nat) : regAt off = none ↔ ∀ r, regOffset r ≠ off := by
  constructor
  · rintro h r rfl
    simp at h
  · intro h
    cases e : regAt off with
    | none => rfl
    | some r => exact absurd (regOffset_of_regAt e) (h r)

theorem regOffset_inj {r r' : Reg} (h : regOffset r = regOffset r') : r = r' := by
  simpa using congrArg regAt h

@[simp] theorem memRead_regOffset (s : State) (r : Reg) :
    memRead s (regOffset r) = readReg s.build s.regs r := by simp [memRead]

theorem memRead_of_regAt {s : State} {off : Nat} {r : Reg} (h : regAt off = some r) :
    memRead s off = readReg s.build s.regs r := by simp [memRead, h]

theorem memRead_reserved {s : State} {off : Nat} (h : regAt off = none) : memRead s off = 0 := by
  simp [memRead, h]

/-- A read depends on the build and the registers alone. -/
theorem memRead_congr {s t : State} (hb : t.build = s.build) (hr : t.regs = s.regs) (off : Nat) :
    memRead t off = memRead s off := by simp [memRead, hb, hr]

/-- A read of the window is the same where the register at its offset reads the same. -/
theorem memRead_eq_of_readReg {s t : State} (hb : t.build = s.build) {off : Nat}
    (h : ∀ r, regOffset r = off → readReg s.build t.regs r = readReg s.build s.regs r) :
    memRead t off = memRead s off := by
  cases e : regAt off with
  | none => rw [memRead_reserved e, memRead_reserved e]
  | some r => rw [memRead_of_regAt e, memRead_of_regAt e, hb, h r (regOffset_of_regAt e)]

theorem windowByte_eq_of_memRead {s t : State} {off : Nat}
    (h : memRead t (off - off % 4) = memRead s (off - off % 4)) : windowByte t off = windowByte s off := by
  rw [windowByte, windowByte, h]

/-- The operand registers stand at 0x20 to 0x44 and 0x50 to 0x5C (R14). -/
theorem regAccess_readWrite_iff (r : Reg) : regAccess r = .readWrite ↔
    (0x20 ≤ regOffset r ∧ regOffset r < 0x48 ∨ 0x50 ≤ regOffset r ∧ regOffset r < 0x60) := by
  cases r <;> simp [regAccess, regOffset] <;> omega

/-- CMD is the one write-only register, at 0x10 (R14). -/
theorem regAccess_writeOnly_iff (r : Reg) : regAccess r = .writeOnly ↔ r = .cmd := by
  cases r <;> simp [regAccess]

/-- Every register stands at an aligned offset of the window. -/
theorem regOffset_aligned (r : Reg) : regOffset r % 4 = 0 ∧ regOffset r < 0xA0 := by
  cases r <;> simp [regOffset] <;> omega

/-! ### Writes of one register -/

@[simp] theorem writeReg_wordOut (g : Regs) (r : Reg) (v : Word32) : (writeReg g r v).wordOut = g.wordOut := by
  cases r <;> rfl
@[simp] theorem writeReg_msOut (g : Regs) (r : Reg) (v : Word32) : (writeReg g r v).msOut = g.msOut := by
  cases r <;> rfl
@[simp] theorem writeReg_tsOut (g : Regs) (r : Reg) (v : Word32) : (writeReg g r v).tsOut = g.tsOut := by
  cases r <;> rfl
@[simp] theorem writeReg_rndOut (g : Regs) (r : Reg) (v : Word32) : (writeReg g r v).rndOut = g.rndOut := by
  cases r <;> rfl
@[simp] theorem writeReg_bytesOut (g : Regs) (r : Reg) (v : Word32) : (writeReg g r v).bytesOut = g.bytesOut := by
  cases r <;> rfl
@[simp] theorem writeReg_code (g : Regs) (r : Reg) (v : Word32) : (writeReg g r v).code = g.code := by
  cases r <;> rfl

/-- Only an operand register is stored to (R52). -/
theorem writeReg_of_not_readWrite {r : Reg} (h : regAccess r ≠ .readWrite) (g : Regs) (v : Word32) :
    writeReg g r v = g := by
  cases r <;> first | rfl | exact absurd rfl h

/-- An operand register reads back what was written (R51). -/
theorem readReg_writeReg_self (b : Build) (g : Regs) {r : Reg} (h : regAccess r = .readWrite) (v : Word32) :
    readReg b (writeReg g r v) r = v := by
  cases r <;> first | exact groupReg_setGroupReg _ _ _ (by omega) | exact absurd h (by simp [regAccess])

/-- Every other register keeps its value (R53). -/
theorem readReg_writeReg_ne (b : Build) (g : Regs) {r r' : Reg} (h : r' ≠ r) (v : Word32) :
    readReg b (writeReg g r v) r' = readReg b g r' := by
  cases r <;> cases r' <;> first
    | rfl
    | exact groupReg_setGroupReg_ne _ _ (fun e => h (by rw [Fin.ext e])) (by omega)

/-! ### The frame of a command -/

theorem runCommand_of_wellFormed {s : State} (h : s.build.WellFormed) (body : Build → Regs → Regs) :
    runCommand s body = .next { s with regs := body s.build s.regs } := if_pos h

theorem runCommand_of_illegal {s : State} (h : ¬ s.build.WellFormed) (body : Build → Regs → Regs) :
    runCommand s body = .refused .illegalBuild := if_neg h

/-- All that a command can do: in a legal build it replaces the registers by its body's, and nothing else. -/
theorem runCommand_next {s t : State} {body : Build → Regs → Regs} (h : runCommand s body = .next t) :
    s.build.WellFormed ∧ t = { s with regs := body s.build s.regs } := by
  by_cases hw : s.build.WellFormed
  · rw [runCommand_of_wellFormed hw] at h
    exact ⟨hw, by injection h with e; exact e.symm⟩
  · rw [runCommand_of_illegal hw] at h
    cases h

/-- A write's answer follows its effect (R56). -/
theorem respondAfter_next {x : Response} {o : Host.Outcome State Fault Refusal} {t : State}
    (h : respondAfter x o = .next t) : ∃ u, o = .next u ∧ t = respond x u := by
  cases o with
  | next u => exact ⟨u, rfl, by injection h with e; exact e.symm⟩
  | fault r => cases h
  | refused r => cases h

end Sys2Proof.Machine
end

