-- ==== Sys2Proof/Laws/Exec.lean ====
section
/-! SUPPORT. What each command does to the registers, by its two ends (spec/40_command_common.md R71, R72). -/

namespace Sys2Proof.Machine

/-- What a build's widths give the arithmetic (R6). -/
theorem widths_le {b : Build} (h : b.WellFormed) : b.wT + b.wR ≤ 128 := by omega

/-- The body of each instruction: what it makes of the registers in a build. -/
def bodyOf : Instr → Build → Regs → Regs
  | .pack => packBody
  | .packf => packfBody
  | .unpack => unpackBody
  | .tobytes => tobytesBody
  | .frombytes => frombytesBody

/-- Every instruction is its body, run as a command (R69). -/
theorem exec_eq_runCommand (i : Instr) (s : State) : exec i s = runCommand s (bodyOf i) := by cases i <;> rfl

/-- In a legal build every instruction completes. -/
theorem exec_of_wellFormed (i : Instr) {s : State} (h : s.build.WellFormed) :
    exec i s = .next { s with regs := bodyOf i s.build s.regs } := by
  rw [exec_eq_runCommand, runCommand_of_wellFormed h]

/-- All that an instruction can do. -/
theorem exec_next {i : Instr} {s t : State} (h : exec i s = .next t) :
    s.build.WellFormed ∧ t = { s with regs := bodyOf i s.build s.regs } :=
  runCommand_next (exec_eq_runCommand i s ▸ h)

/-- The two ends of PACK and PACKF (R78). -/
theorem packField_cases (d : Int) (b : Build) (g : Regs) :
    (Representable b d ∧ packField d b g = complete { g with wordOut := packWord b d.toNat g.rndIn }) ∨
    (¬ Representable b d ∧ packField d b g = raise .outOfRange g) := by
  by_cases h : Representable b d
  · exact .inl ⟨h, if_pos h⟩
  · exact .inr ⟨h, if_neg h⟩

/-- The two ends of UNPACK (R84). -/
theorem unpackBody_cases (b : Build) (g : Regs) :
    (ValidWord b g.wordIn ∧ unpackBody b g = complete { g with
      tsOut := BitVec.ofNat 64 (timestampField b g.wordIn)
      rndOut := BitVec.ofNat 64 (randomField b g.wordIn)
      msOut := instantOf (timestampField b g.wordIn) }) ∨
    (¬ ValidWord b g.wordIn ∧ unpackBody b g = raise .invalidFormat g) := by
  by_cases h : ValidWord b g.wordIn
  · exact .inl ⟨h, if_pos h⟩
  · exact .inr ⟨h, if_neg h⟩

/-- The two ends of FROMBYTES (R90). -/
theorem frombytesBody_cases (b : Build) (g : Regs) :
    (ValidWord b (rebuiltWord g) ∧ frombytesBody b g = complete { g with wordOut := rebuiltWord g }) ∨
    (¬ ValidWord b (rebuiltWord g) ∧ frombytesBody b g = raise .invalidFormat g) := by
  by_cases h : ValidWord b (rebuiltWord g)
  · exact .inl ⟨h, if_pos h⟩
  · exact .inr ⟨h, if_neg h⟩

/-- The two fields of a packed word (R83). -/
theorem packWord_fields {b : Build} (hw : b.WellFormed) {d : Nat} (hd : d < 2 ^ b.wT) (r : Word64) :
    ValidWord b (packWord b d r) ∧ timestampField b (packWord b d r) = d ∧
      randomField b (packWord b d r) = r.toNat % 2 ^ b.wR := by
  have hl := packWord_lt (widths_le hw) hd r
  refine ⟨(validWord_iff (widths_le hw) _).mpr hl, ?_, ?_⟩
  · rw [timestampField_of_valid hw.2.1.1 hl, packWord_div (widths_le hw) hd]
  · rw [randomField_eq hw.2.1.1, packWord_mod (widths_le hw) hd]

/-- A representable value, as a natural number, fits the timestamp field (R78). -/
theorem toNat_lt_of_representable {b : Build} {d : Int} (h : Representable b d) : d.toNat < 2 ^ b.wT := by
  have h1 := h.1
  have h2 := h.2
  zify
  omega

/-- A command that reports OK took its completing end. -/
theorem packField_of_code_zero {d : Int} {b : Build} {g : Regs} (h : (packField d b g).code = 0) :
    Representable b d ∧ packField d b g = complete { g with wordOut := packWord b d.toNat g.rndIn } := by
  obtain h' | ⟨-, e⟩ := packField_cases d b g
  · exact h'
  · rw [e] at h; cases h

theorem unpackBody_of_code_zero {b : Build} {g : Regs} (h : (unpackBody b g).code = 0) :
    ValidWord b g.wordIn ∧ unpackBody b g = complete { g with
      tsOut := BitVec.ofNat 64 (timestampField b g.wordIn)
      rndOut := BitVec.ofNat 64 (randomField b g.wordIn)
      msOut := instantOf (timestampField b g.wordIn) } := by
  obtain h' | ⟨-, e⟩ := unpackBody_cases b g
  · exact h'
  · rw [e] at h; cases h

theorem frombytesBody_of_code_zero {b : Build} {g : Regs} (h : (frombytesBody b g).code = 0) :
    ValidWord b (rebuiltWord g) ∧ frombytesBody b g = complete { g with wordOut := rebuiltWord g } := by
  obtain h' | ⟨-, e⟩ := frombytesBody_cases b g
  · exact h'
  · rw [e] at h; cases h

theorem packField_operands (d : Int) (b : Build) (g : Regs) :
    (packField d b g).wordIn = g.wordIn ∧ (packField d b g).msIn = g.msIn ∧ (packField d b g).tsIn = g.tsIn ∧
      (packField d b g).rndIn = g.rndIn ∧ (packField d b g).bytesIn = g.bytesIn := by
  obtain ⟨-, e⟩ | ⟨-, e⟩ := packField_cases d b g <;> simp [e]

/-- No command writes an operand register (R31). -/
theorem bodyOf_operands (i : Instr) (b : Build) (g : Regs) :
    (bodyOf i b g).wordIn = g.wordIn ∧ (bodyOf i b g).msIn = g.msIn ∧ (bodyOf i b g).tsIn = g.tsIn ∧
      (bodyOf i b g).rndIn = g.rndIn ∧ (bodyOf i b g).bytesIn = g.bytesIn := by
  cases i with
  | pack => exact packField_operands _ b g
  | packf => exact packField_operands _ b g
  | unpack => obtain ⟨-, e⟩ | ⟨-, e⟩ := unpackBody_cases b g <;> simp [bodyOf, e]
  | tobytes => simp [bodyOf, tobytesBody]
  | frombytes => obtain ⟨-, e⟩ | ⟨-, e⟩ := frombytesBody_cases b g <;> simp [bodyOf, e]

end Sys2Proof.Machine
end

