-- ==== Sys2Proof/Laws/Bus.lean ====
section
/-! SUPPORT. What the bus port and one step can do: each kind of input once, and the inversion of a step. -/

namespace Sys2Proof.Machine

/-! ### Command words -/

/-- What a command word makes of the registers: its operation's body, or UNSUPPORTED (R71, R94). -/
def bodyOfWord (c : Word32) (b : Build) (g : Regs) : Regs :=
  match decode c with
  | .ok i => bodyOf i b g
  | .error _ => raise .unsupported g

/-- Every command word is its body, run as a command. -/
theorem command_eq_runCommand (c : Word32) (s : State) : command c s = runCommand s (bodyOfWord c) := by
  unfold command bodyOfWord
  cases decode c with
  | ok i => exact exec_eq_runCommand i s
  | error r => rfl

theorem bodyOfWord_ok {c : Word32} {i : Instr} (h : decode c = .ok i) : bodyOfWord c = bodyOf i := by
  funext b g; simp [bodyOfWord, h]

theorem bodyOfWord_error {c : Word32} {r : DecodeReject} (h : decode c = .error r) (b : Build) (g : Regs) :
    bodyOfWord c b g = raise .unsupported g := by simp [bodyOfWord, h]

/-! ### Writes -/

theorem memWrite_cmd (v : Word32) (s : State) : memWrite (regOffset .cmd) v s = command v s := by
  simp [memWrite, regAccess]

theorem memWrite_of_regAt {off : Nat} {r : Reg} (h : regAt off = some r) (hr : regAccess r ≠ .writeOnly)
    (v : Word32) (s : State) : memWrite off v s = .next { s with regs := writeReg s.regs r v } := by
  simp [memWrite, h, hr]

theorem memWrite_reserved {off : Nat} (h : regAt off = none) (v : Word32) (s : State) :
    memWrite off v s = .next s := by simp [memWrite, h]

/-! ### Accesses of a ready block -/

/-- A ready block takes a legal access at an aligned offset of the window (R48). -/
theorem step_legalAccess {s : State} (h : Ready s) {off : Nat} (h1 : off < 0x100) (h2 : off % 4 = 0)
    (k : AccessKind) :
    step (issue (.access ⟨s.build.base + off, 4, k⟩) s) = legalAccess ⟨s.build.base + off, 4, k⟩ s := by
  have hb := h.1.2.2.1
  rw [step, issue_build, if_pos h.1]
  simp only [takeNext, issue_pending, takeEvent]
  rw [show ({ issue (.access ⟨s.build.base + off, 4, k⟩) s with pending := s.pending } : State) = s from rfl,
    busAccess, if_pos ⟨Nat.le_add_right .., by simpa using h1⟩, h.2]
  exact if_pos ⟨rfl, by simp only; omega⟩

/-- A read answers the register and changes nothing else (R50, R53). -/
theorem step_read {s : State} (h : Ready s) {off : Nat} (h1 : off < 0x100) (h2 : off % 4 = 0) :
    step (issue (.access ⟨s.build.base + off, 4, .read⟩) s) = .next (respond (.data (memRead s off)) s) := by
  rw [step_legalAccess h h1 h2]
  simp [legalAccess]

/-- A write is `memWrite`, then the normal response (R51, R56). -/
theorem step_write {s : State} (h : Ready s) {off : Nat} (h1 : off < 0x100) (h2 : off % 4 = 0) (v : Word32) :
    step (issue (.access ⟨s.build.base + off, 4, .write v⟩) s) = respondAfter .done (memWrite off v s) := by
  rw [step_legalAccess h h1 h2]
  simp [legalAccess]

/-- A write to a register other than CMD (R51, R52). -/
theorem step_write_reg {s : State} (h : Ready s) {r : Reg} (hr : regAccess r ≠ .writeOnly) (v : Word32) :
    step (issue (.access ⟨s.build.base + regOffset r, 4, .write v⟩) s) =
      .next (respond .done { s with regs := writeReg s.regs r v }) := by
  rw [step_write h (by have := (regOffset_aligned r).2; omega) (regOffset_aligned r).1,
    memWrite_of_regAt (regAt_regOffset r) hr]
  rfl

/-- A write to CMD (R69). -/
theorem step_write_cmd {s : State} (h : Ready s) (c : Word32) :
    step (issue (.access ⟨s.build.base + 0x10, 4, .write c⟩) s) = respondAfter .done (command c s) := by
  rw [step_write h (by omega) (by omega), ← memWrite_cmd]
  rfl

/-- The step of the next input on its way. -/
theorem step_cons {s : State} (h : s.build.WellFormed) {e : Event} {rest : List Event}
    (hp : s.pending = e :: rest) : step s = takeEvent e { s with pending := rest } := by
  rw [step, if_pos h, takeNext, hp]

theorem step_issue {s : State} (h : s.build.WellFormed) (e : Event) : step (issue e s) = takeEvent e s :=
  step_cons (s := issue e s) h rfl

/-! ### The inversion of a step -/

/-- All that one input can do when it is taken and the run goes on: `s` is the state without that input. -/
inductive Effect : Event → State → State → Prop where
  /-- A legal read (R50). -/
  | read (a : Access) (s : State) : s.phase = .running →
      Effect (.access a) s (respond (.data (memRead s (a.addr - s.build.base))) s)
  /-- A legal write to a register other than CMD (R51, R52). -/
  | write (off : Nat) (r : Reg) (v : Word32) (s : State) : s.phase = .running → regAt off = some r →
      regAccess r ≠ .writeOnly → Effect (.access ⟨s.build.base + off, 4, .write v⟩) s
        (respond .done { s with regs := writeReg s.regs r v })
  /-- A legal write to a reserved offset (R33). -/
  | ignored (a : Access) (s : State) : s.phase = .running → Effect (.access a) s (respond .done s)
  /-- A command word (R71, R94). -/
  | command (c : Word32) (s : State) : s.phase = .running →
      Effect (.access ⟨s.build.base + 0x10, 4, .write c⟩) s
        (respond .done { s with regs := bodyOfWord c s.build s.regs })
  /-- An illegal access, or one outside the window (R42, R49). -/
  | unanswered (a : Access) (x : Option Word32 → Response) (s : State) : Effect (.access a) s (respondOpen a.kind x s)
  /-- The reset input and the power (R109, R110). -/
  | assertReset (s : State) : Effect .assertReset s (Machine.assertReset s)
  | releaseReset (s : State) : Effect .releaseReset s (Machine.releaseReset s)
  | powerCycle (s : State) : Effect .powerCycle s (Machine.powerCycle s)

theorem legalAccess_next {a : Access} {s t : State} (hw : InWindow s.build a.addr) (hl : LegalAccess a)
    (hp : s.phase = .running) (h : legalAccess a s = .next t) : Effect (.access a) s t := by
  obtain ⟨addr, size, kind⟩ := a
  obtain ⟨rfl, -⟩ : size = 4 ∧ _ := hl
  cases kind with
  | read =>
    injection h with e
    exact e ▸ .read _ s hp
  | write v =>
    obtain ⟨off, rfl⟩ : ∃ off, addr = s.build.base + off := ⟨addr - s.build.base, by have : s.build.base ≤ addr := hw.1; omega⟩
    simp only [legalAccess, Nat.add_sub_cancel_left] at h
    obtain ⟨u, hu, rfl⟩ := respondAfter_next h
    cases hr : regAt off with
    | none =>
      rw [memWrite_reserved hr] at hu
      injection hu with e
      exact e ▸ .ignored _ s hp
    | some r =>
      by_cases hk : regAccess r = .writeOnly
      · obtain rfl := (regAccess_writeOnly_iff r).mp hk
        obtain rfl := regOffset_of_regAt hr
        rw [memWrite_cmd, command_eq_runCommand] at hu
        obtain ⟨-, rfl⟩ := runCommand_next hu
        exact .command v s hp
      · rw [memWrite_of_regAt hr hk] at hu
        injection hu with e
        exact e ▸ .write off r v s hp hr hk

/-- All that a step can do when it answers a next state. -/
theorem step_next {s t : State} (h : step s = .next t) :
    s.build.WellFormed ∧ (s.pending = [] ∧ t = s ∨
      ∃ e rest, s.pending = e :: rest ∧ Effect e { s with pending := rest } t) := by
  by_cases hw : s.build.WellFormed
  · refine ⟨hw, ?_⟩
    cases hp : s.pending with
    | nil =>
      rw [step, if_pos hw, takeNext, hp] at h
      injection h with e
      exact .inl ⟨rfl, e.symm⟩
    | cons e rest =>
      refine .inr ⟨e, rest, rfl, ?_⟩
      rw [step_cons hw hp] at h
      cases e with
      | assertReset => injection h with e; exact e ▸ .assertReset _
      | releaseReset => injection h with e; exact e ▸ .releaseReset _
      | powerCycle => injection h with e; exact e ▸ .powerCycle _
      | access a =>
        simp only [takeEvent, busAccess] at h
        split at h
        · split at h
          · cases h
          · cases h
          · split at h
            · exact legalAccess_next ‹_› ‹_› ‹_› h
            · unfold illegalAccess at h
              split at h
              · injection h with e; exact e ▸ .unanswered a .busError _
              · cases h
        · injection h with e; exact e ▸ .unanswered a .elsewhere _
  · rw [step, if_neg hw] at h
    cases h

/-- No step changes the build, and a step takes the one input (R55). -/
theorem Effect.build_pending {e : Event} {s t : State} (h : Effect e s t) :
    t.build = s.build ∧ t.pending = s.pending := by
  cases h <;> simp

end Sys2Proof.Machine
end

