-- ==== Sys2Proof/Laws/HostProgram.lean ====
section
/-! SUPPORT. What one line of a host program does on a ready block (spec/30_encoding.md R67, R68). -/

namespace Sys2Proof.Machine

/-- A write line of a register other than CMD. -/
theorem hostWrite_reg {h : HostRun} {r : Reg} (hr : Ready h.block) (ha : regAccess r ≠ .writeOnly) (v : Word32) :
    hostWrite h (regOffset r) v = .next { h with
      block := respond .done { h.block with regs := writeReg h.block.regs r v }, line := h.line + 1 } := by
  unfold hostWrite
  rw [show hostAccess h.block (regOffset r) (.write v) = _ from step_write_reg hr ha v]

theorem hostStep_wr {h : HostRun} {r : Reg} {v : Word32} (hr : Ready h.block) (ha : regAccess r ≠ .writeOnly)
    (hl : h.prog[h.line]? = some (.wr (regOffset r) v)) :
    hostStep h = .next { h with
      block := respond .done { h.block with regs := writeReg h.block.regs r v }, line := h.line + 1 } := by
  rw [hostStep, hl]
  exact hostWrite_reg hr ha v

/-- A read at a legal offset: the value read is the register's, and the block's registers stay. -/
theorem hostRead_legal {h : HostRun} {off : Nat} (hr : Ready h.block) (h1 : off < 0x100) (h2 : off % 4 = 0)
    (after : Word32 → HostRun → Host.Outcome HostRun Fault Refusal) :
    hostRead h off after = after (memRead h.block off) { h with
      block := respond (.data (memRead h.block off)) h.block, reads := memRead h.block off :: h.reads } := by
  unfold hostRead
  rw [show hostAccess h.block off .read = _ from step_read hr h1 h2]
  rfl

/-- The rules give a value exactly to a legal read of a ready block: the register's. -/
theorem ruleValue_eq_some_iff {s : State} {off : Nat} {v : Word32} :
    ruleValue s off = some v ↔ Ready s ∧ off < 0x100 ∧ off % 4 = 0 ∧ memRead s off = v := by
  unfold ruleValue
  split <;> simp_all [and_assoc]

/-- What `rd NAME -> v` states, as a proposition (R67). -/
theorem lineClaim_rdIs {h : HostRun} {off : Nat} {v : Word32} (hl : h.prog[h.line]? = some (.rdIs off v)) :
    lineClaim h = true ↔ ruleValue h.block off = some v := by
  simp [lineClaim, hl]

/-- Lines of a run in two parts. -/
theorem hostSteps_add (m n : Nat) (h : HostRun) :
    hostSteps (m + n) h = match hostSteps m h with
      | .next h' => hostSteps n h'
      | .fault r => .fault r
      | .refused r => .refused r := by
  induction m generalizing h with
  | zero => simp [hostSteps]
  | succ m ih =>
    rw [Nat.succ_add]
    simp only [hostSteps]
    cases hostStep h with
    | next h' => exact ih h'
    | fault r => rfl
    | refused r => rfl

end Sys2Proof.Machine
end

