-- ==== Sys2Proof/Laws/PerInstr.lean ====
section
/-! SUPPORT. Statements for every instruction, one lemma per constructor. -/

/-- The encoding of an instruction (spec/30_encoding.md R61, R63): its word decodes to it, the reserved bits of its
word are zero, and it is well formed. -/
def Sys2Proof.Laws.Encoding.Statement (i : Sys2Proof.Instr) : Prop :=
  i.wellFormed = true ∧ Sys2Proof.decode (Sys2Proof.encode i) = .ok i ∧
    Sys2Proof.rsvdField (Sys2Proof.encode i) = 0

namespace Sys2Proof.Laws.Encoding

theorem pack : Statement .pack := ⟨rfl, rfl, rfl⟩

theorem packf : Statement .packf := ⟨rfl, rfl, rfl⟩

theorem unpack : Statement .unpack := ⟨rfl, rfl, rfl⟩

theorem tobytes : Statement .tobytes := ⟨rfl, rfl, rfl⟩

theorem frombytes : Statement .frombytes := ⟨rfl, rfl, rfl⟩

end Sys2Proof.Laws.Encoding
end

