-- ==== Sys2Proof/Machine/HostSyntax.lean ====
section
/-! DEFINITION. The text of host programs: spec/30_encoding.md R67 and R68 read from characters. -/

namespace Sys2Proof.Machine

/-- The names of R14. -/
def regName : Reg → String
  | .cfg => "CFG"
  | .epoch j => pairName "EPOCH" j
  | .cmd => "CMD"
  | .status => "STATUS"
  | .wordIn j => quadName "WORD_IN" j
  | .msIn j => pairName "MS_IN" j
  | .tsIn j => pairName "TS_IN" j
  | .rndIn j => pairName "RND_IN" j
  | .bytesIn j => quadName "BYTES_IN" j
  | .wordOut j => quadName "WORD_OUT" j
  | .msOut j => pairName "MS_OUT" j
  | .tsOut j => pairName "TS_OUT" j
  | .rndOut j => pairName "RND_OUT" j
  | .bytesOut j => quadName "BYTES_OUT" j
where
  pairName (g : String) (j : Fin 2) : String := g ++ (if j = 0 then "_LO" else "_HI")
  quadName (g : String) (j : Fin 4) : String := g ++ [ "0", "1", "2", "3" ].getD j ""

/-- Mnemonics and register names are case-insensitive (R67). -/
def lower (t : List Char) : List Char := t.map Char.toLower

/-- The words of a line: a comment is cut off, blanks and commas part the words (R67). -/
def words : List Char → List (List Char)
  | [] => []
  | c :: cs =>
    if c = ';' then []
    else if c = ' ' ∨ c = '\t' ∨ c = ',' then [] :: words cs
    else match words cs with
      | [] => [[c]]
      | w :: ws => (c :: w) :: ws

/-- The value of a digit in a base. -/
def digitValue (base : Nat) (c : Char) : Option Nat :=
  let n := c.toNat
  let v := if 48 ≤ n ∧ n ≤ 57 then some (n - 48) else if 97 ≤ n ∧ n ≤ 102 then some (n - 87) else none
  v.bind fun d => if d < base then some d else none

/-- Digits after the value so far; underscores only group digits (00_scope.md section 5), so a digit follows each. -/
def digits (base : Nat) (acc : Nat) : List Char → Option Nat
  | [] => some acc
  | '_' :: c :: cs =>
    match digitValue base c with
    | some d => digits base (base * acc + d) cs
    | none => none
  | c :: cs =>
    match digitValue base c with
    | some d => digits base (base * acc + d) cs
    | none => none

/-- One digit or more, the first character no underscore. -/
def wholeNumber (base : Nat) : List Char → Option Nat
  | [] => none
  | c :: cs => if c = '_' then none else digits base 0 (c :: cs)

/-- A number: hexadecimal with `0x`, or decimal (R67). -/
def number (t : List Char) : Option Nat :=
  match lower t with
  | '0' :: 'x' :: cs => wholeNumber 16 cs
  | cs => wholeNumber 10 cs

/-- A number of at most `n` bits. -/
def immediate (n : Nat) (t : List Char) : Option (BitVec n) :=
  (number t).bind fun v => if v < 2 ^ n then some (BitVec.ofNat n v) else none

/-- An instant: a number, or a negative one after a minus sign (R68, `ldms`); a 64-bit pattern. -/
def instant : List Char → Option Int
  | '-' :: t => (number t).bind fun v => if v ≤ 2 ^ 63 then some (-(v : Int)) else none
  | t => (number t).bind fun v => if v < 2 ^ 64 then some (v : Int) else none

/-- NAME: a register name of R14, or a hexadecimal offset (R67). -/
def target (t : List Char) : Option Nat :=
  match allRegs.find? fun r => lower (regName r).toList == lower t with
  | some r => some (regOffset r)
  | none =>
    match lower t with
    | '0' :: 'x' :: _ => number t
    | _ => none

/-- The command mnemonics (R67). -/
def mnemonic (t : List Char) : Option Instr :=
  [Instr.pack, .packf, .unpack, .tobytes, .frombytes].find? fun i => name i == lower t
where
  name : Instr → List Char
    | .pack => "pack".toList
    | .packf => "packf".toList
    | .unpack => "unpack".toList
    | .tobytes => "tobytes".toList
    | .frombytes => "frombytes".toList

/-- The sixteen byte values of `ldbytes` (R68). -/
def sixteenBytes (ts : List (List Char)) : Option (Vector Byte 16) :=
  match ts.mapM (immediate 8) with
  | some l => if h : l.toArray.size = 16 then some ⟨l.toArray, h⟩ else none
  | none => none

/-- A line with no operand: a command mnemonic, `halt`, a pseudo-instruction without operands, or a label.
R67 gives no character set for a label's name: any word that ends in a colon is a label, DESIGN CHOICE
(notes/assumptions/23.md). -/
def plainLine (t : List Char) : Option (List Line) :=
  match mnemonic t with
  | some i => some [.run i]
  | none =>
    if t.getLast? = some ':' then some [.label (String.ofList t.dropLast)]
    else if lower t = "halt".toList then some [.halt]
    else if lower t = "rdword".toList then some (expand .rdword)
    else if lower t = "rdfields".toList then some (expand .rdfields)
    else if lower t = "rdbytes".toList then some (expand .rdbytes)
    else if lower t = "mov.out.in".toList then some (expand .movOutIn)
    else if lower t = "chk".toList then some (expand .chk)
    else none

/-- A line with one operand. -/
def oneOperandLine (t a : List Char) : Option (List Line) :=
  if lower t = "rd".toList then (target a).map fun o => [.rd o]
  else if lower t = "cmd".toList then (immediate 32 a).map fun c => [.cmd c]
  else if lower t = "jmp".toList then some [.jmp (String.ofList a)]
  else if lower t = "ldword".toList then (immediate 128 a).map fun v => expand (.ldword v)
  else if lower t = "ldms".toList then (instant a).map fun v => expand (.ldms v)
  else if lower t = "ldts".toList then (immediate 64 a).map fun v => expand (.ldts v)
  else if lower t = "ldrnd".toList then (immediate 64 a).map fun v => expand (.ldrnd v)
  else none

/-- A line with two operands. `wr CMD, imm32` takes any word, a reserved one too, though R67 calls `cmd` the only way to
write one: DESIGN CHOICE (notes/assumptions/21.md). -/
def twoOperandLine (t a b : List Char) : Option (List Line) :=
  if lower t = "wr".toList then
    (target a).bind fun o => (immediate 32 b).map fun v => [.wr o v]
  else if lower t = "jnz".toList then (target a).map fun o => [.jnz o (String.ofList b)]
  else if lower t = "gen".toList then
    (instant a).bind fun ms => (immediate 64 b).map fun r => expand (.gen ms r)
  else none

/-- One line of text as the lines it stands for: none of them for an empty line, no answer for a text that is no
line of R67 or R68. -/
def parseLine (text : List Char) : Option (List Line) :=
  match (words text).filter (· ≠ []) with
  | [] => some []
  | [t] => plainLine t
  | [t, a] => oneOperandLine t a
  | [t, a, b] => twoOperandLine t a b
  | t :: a :: b :: c :: rest =>
    if lower t = "rd".toList ∧ b = "->".toList ∧ rest = [] then
      (target a).bind fun o => (immediate 32 c).map fun v => [.rdIs o v]
    else if lower t = "ldbytes".toList then (sixteenBytes (a :: b :: c :: rest)).map fun v => expand (.ldbytes v)
    else none

/-- A host program: its lines of text in order (R67). -/
def parseProgram (ls : List String) : Option (List Line) :=
  (ls.mapM fun l => parseLine l.toList).map List.flatten

end Sys2Proof.Machine
end

