-- ==== Sys2Proof/Tests/Slice0.lean ====
section
/-! SUPPORT. The tests of the model. Their expected values are the vectors of spec/95_test_vectors.md, by name
(PK10, U4, M8, R2, …). The theorems named `witness_` show that the hypotheses of a statement can be met, at the
boundaries of its clauses. -/

namespace Sys2Proof.Machine.Tests

open Host.Outcome

/-! ### Helpers -/

/-- The next state of an outcome, if it is one. -/
def nextOf {σ φ ρ : Type} : Host.Outcome σ φ ρ → Option σ
  | .next s => some s
  | .fault _ => none
  | .refused _ => none

/-- The refusal of an outcome, if it is one. -/
def refusalOf {σ φ ρ : Type} : Host.Outcome σ φ ρ → Option ρ
  | .next _ => none
  | .fault _ => none
  | .refused r => some r

/-- The fault of an outcome, if it is one. -/
def faultOf {σ φ ρ : Type} : Host.Outcome σ φ ρ → Option φ
  | .next _ => none
  | .fault r => some r
  | .refused _ => none

/-- The state of the default build, out of reset, with registers `g`. -/
def withRegs (g : Regs) : State := { State.reset with regs := g }

/-- The state of the 43/62 build, out of reset, with registers `g`. -/
def withRegs4362 (g : Regs) : State := { State.resetOf Build.split4362 with regs := g }

/-- The registers after an instruction. -/
def regsAfter (i : Instr) (s : State) : Option Regs := (nextOf (exec i s)).map State.regs

/-- STATUS.CODE after an instruction. -/
def codeAfter (i : Instr) (s : State) : Option (BitVec 3) := (regsAfter i s).map Regs.code

/-- The registers after one access by a host. -/
def regsAfterAccess (a : Access) (s : State) : Option Regs := (nextOf (step (issue (.access a) s))).map State.regs

/-- The answer to one access by a host. -/
def answerTo (a : Access) (s : State) : Option Response := (nextOf (step (issue (.access a) s))).bind State.response

/-- Registers with a value in every result, so that an unchanged result shows. -/
def used : Regs :=
  { Regs.reset with wordOut := 0x758FAC300123456789ABCDEF, msOut := 0x18CC251F400, tsOut := 0x1D63EB0C00,
                    rndOut := 0x123456789ABCDEF, bytesOut := 0x77, code := 2 }

/-! ### The encoding (R61 to R65) -/

/-- PACK: RSVD zero, OP 0001 (R63). -/
theorem test_decode_pack : decode 0b00000000000000000000000000000001#32 = .ok .pack := by rfl
/-- PACKF: OP 0010. -/
theorem test_decode_packf : decode 0b00000000000000000000000000000010#32 = .ok .packf := by rfl
/-- UNPACK: OP 0011. -/
theorem test_decode_unpack : decode 0b00000000000000000000000000000011#32 = .ok .unpack := by rfl
/-- TOBYTES: OP 0100. -/
theorem test_decode_tobytes : decode 0b00000000000000000000000000000100#32 = .ok .tobytes := by rfl
/-- FROMBYTES: OP 0101. -/
theorem test_decode_frombytes : decode 0b00000000000000000000000000000101#32 = .ok .frombytes := by rfl
/-- C4: OP 1 with bit 4 set is no PACK. -/
theorem test_decode_bit4 : decode 0x00000011 = .error .reservedBits := by rfl
/-- The host's question on a row, and on a word longer than 32 bits (R66). -/
theorem test_decodeTableWord : decodeTableWord 32 3 = some .unpack ∧ decodeTableWord 32 6 = none ∧
    decodeTableWord 64 (2 ^ 32 + 3) = none := by decide

/-! ### Well-formedness: each check refuses an ill-formed term (R6, R41, R121, R48) -/

theorem test_build_wellFormed : Build.reference.WellFormed ∧ Build.split4362.WellFormed := by decide
theorem test_build_widths_edges : ({ Build.reference with wT := 1, wR := 1 } : Build).WellFormed ∧
    ({ Build.reference with wT := 62, wR := 64 } : Build).WellFormed := by decide
theorem test_build_wT_zero : ¬ ({ Build.reference with wT := 0 } : Build).WellFormed := by decide
theorem test_build_wT_63 : ¬ ({ Build.reference with wT := 63 } : Build).WellFormed := by decide
theorem test_build_wR_zero : ¬ ({ Build.reference with wR := 0 } : Build).WellFormed := by decide
theorem test_build_wR_65 : ¬ ({ Build.reference with wR := 65 } : Build).WellFormed := by decide
theorem test_build_base_unaligned : ¬ ({ Build.reference with base := 0x80 } : Build).WellFormed := by decide
theorem test_build_latency_zero : ¬ ({ Build.reference with latency := 0 } : Build).WellFormed := by decide
theorem test_access_width : ¬ LegalAccess ⟨0x10, 1, .read⟩ ∧ ¬ LegalAccess ⟨0x10, 8, .read⟩ := by decide
theorem test_access_alignment : ¬ LegalAccess ⟨0x22, 4, .read⟩ ∧ LegalAccess ⟨0x20, 4, .read⟩ := by decide
theorem test_instr_wellFormed : ∀ i ∈ [Instr.pack, .packf, .unpack, .tobytes, .frombytes], i.wellFormed = true := by
  decide

/-- 2020-01-01 is 18262 days after 1970-01-01: 50 years of 365 days and 12 leap days (R7). -/
theorem test_epoch_days : Config.epochMs = (50 * 365 + 12) * 86400000 := by decide

/-! ### The commands: two vectors each -/

/-- PK10: a typical instant; the other results stay. -/
theorem test_pack_pk10 :
    regsAfter .pack (withRegs { used with msIn := 0x0000018CC251F400, rndIn := 0x0123456789ABCDEF, wordOut := 0 }) =
      some { used with msIn := 0x0000018CC251F400, rndIn := 0x0123456789ABCDEF,
                       wordOut := 0x00000000758FAC300123456789ABCDEF, code := 0 } := by decide
/-- PK7: the difference does not wrap; only CODE changes. -/
theorem test_pack_pk7 : regsAfter .pack (withRegs { used with msIn := 0x8000000000000000, code := 0 }) =
    some { used with msIn := 0x8000000000000000, code := 2 } := by decide
/-- K7, in the 43/62 build: the largest field and the mask of RND_IN. -/
theorem test_packf_k7 :
    regsAfter .packf (withRegs4362 { used with tsIn := 0x000007FFFFFFFFFF, rndIn := 0xFFFFFFFFFFFFFFFF }) =
      some { used with tsIn := 0x000007FFFFFFFFFF, rndIn := 0xFFFFFFFFFFFFFFFF,
                       wordOut := 0x000001FFFFFFFFFFFFFFFFFFFFFFFFFF, code := 0 } := by decide
/-- K4: TS_IN is unsigned. -/
theorem test_packf_k4 : regsAfter .packf (withRegs { used with tsIn := 0xFFFFFFFFFFFFFFFF, code := 0 }) =
    some { used with tsIn := 0xFFFFFFFFFFFFFFFF, code := 2 } := by decide
/-- U10: a 48/58 word in a 43/62 build. -/
theorem test_unpack_u10 : regsAfter .unpack (withRegs4362 { used with wordIn := 0x758FAC300123456789ABCDEF }) =
    some { used with wordIn := 0x758FAC300123456789ABCDEF, tsOut := 0x00000001D63EB0C0,
                     rndOut := 0x0123456789ABCDEF, msOut := 0x0000017134A598C0, code := 0 } := by decide
/-- U4: bit 106 is the lowest reserved bit. -/
theorem test_unpack_u4 : regsAfter .unpack (withRegs { used with wordIn := 0x00000400000000000000000000000000 }) =
    some { used with wordIn := 0x00000400000000000000000000000000, code := 1 } := by decide
/-- T5: byte 0 is the most significant, and no reserved bit is checked. -/
theorem test_tobytes_t5 :
    regsAfter .tobytes (withRegs { used with wordIn := 0x0123456789ABCDEFFEDCBA9876543210 }) =
      some { used with wordIn := 0x0123456789ABCDEFFEDCBA9876543210,
                       bytesOut := 0x1032547698BADCFEEFCDAB8967452301, code := 0 } := by decide
/-- T4. -/
theorem test_tobytes_t4 : (regsAfter .tobytes (withRegs { used with wordIn := 0x000003FFFFFFFFFFFFFFFFFFFFFFFFFF })).map Regs.bytesOut =
    some 0xFFFFFFFFFFFFFFFFFFFFFFFFFF030000 := by decide
/-- F10: the bytes of T3. -/
theorem test_frombytes_f10 :
    regsAfter .frombytes (withRegs { used with bytesIn := 0xEFCDAB896745230130AC8F7500000000, wordOut := 0 }) =
      some { used with bytesIn := 0xEFCDAB896745230130AC8F7500000000,
                       wordOut := 0x00000000758FAC300123456789ABCDEF, code := 0 } := by decide
/-- F8, in the 43/62 build: bit 105 is reserved there. -/
theorem test_frombytes_f8 : regsAfter .frombytes (withRegs4362 { used with bytesIn := 0x00020000, code := 0 }) =
    some { used with bytesIn := 0x00020000, code := 1 } := by decide

/-! ### The port (vectors of section 3) -/

/-- C4: a reserved word sets CODE = 3 and does no PACK. -/
theorem test_cmd_c4 : regsAfterAccess ⟨0x10, 4, .write 0x00000011⟩ (withRegs used) =
    some { used with code := 3 } := by decide
/-- C6: TOBYTES overwrites the earlier code. -/
theorem test_cmd_c6 : (regsAfterAccess ⟨0x10, 4, .write 0x00000004⟩ (withRegs used)).map Regs.code = some 0 := by
  decide
/-- M1: CMD reads 0 and runs nothing. -/
theorem test_read_cmd : answerTo ⟨0x10, 4, .read⟩ (withRegs used) = some (.data 0) ∧
    regsAfterAccess ⟨0x10, 4, .read⟩ (withRegs used) = some used := by decide
/-- M2: reserved offsets read 0. -/
theorem test_read_reserved : ∀ off ∈ [0x04, 0x18, 0x48, 0x88, 0xFC],
    answerTo ⟨off, 4, .read⟩ (withRegs used) = some (.data 0) := by decide
/-- M3: a write to WORD_OUT0 is ignored. -/
theorem test_write_readOnly : regsAfterAccess ⟨0x60, 4, .write 0x12345678⟩ (withRegs used) = some used ∧
    answerTo ⟨0x60, 4, .write 0x12345678⟩ (withRegs used) = some .done := by decide
/-- M5: CFG in both builds. -/
theorem test_read_cfg : answerTo ⟨0x00, 4, .read⟩ (withRegs used) = some (.data 0x00163A30) ∧
    answerTo ⟨0x00, 4, .read⟩ (withRegs4362 used) = some (.data 0x00173E2B) := by decide
/-- M6: EPOCH_LO and EPOCH_HI. -/
theorem test_read_epoch : answerTo ⟨0x08, 4, .read⟩ (withRegs used) = some (.data 0x5E66E800) ∧
    answerTo ⟨0x0C, 4, .read⟩ (withRegs used) = some (.data 0x0000016F) := by decide
/-- M8: an 8-bit write at CMD is a bus error and runs nothing. -/
theorem test_byte_write_cmd : answerTo ⟨0x10, 1, .write 0x01⟩ (withRegs used) = some (.busError none) ∧
    regsAfterAccess ⟨0x10, 1, .write 0x01⟩ (withRegs used) = some used := by decide
/-- M9: a misaligned read changes nothing; its data is any value, so nothing is said of it. -/
theorem test_misaligned_read : regsAfterAccess ⟨0x22, 4, .read⟩ (withRegs used) = some used := by rfl
/-- M10: an operand register takes all 32 bits, and its neighbours keep theirs. -/
theorem test_write_operand : regsAfterAccess ⟨0x24, 4, .write 0xDEADBEEF⟩ (withRegs { used with wordIn := 0xFFFFFFFFFFFFFFFFFFFFFFFFFFFFFFFF }) =
    some { used with wordIn := 0xFFFFFFFFFFFFFFFFDEADBEEFFFFFFFFF } := by decide
/-- M11: STATUS and TS_OUT_LO. -/
theorem test_read_results : answerTo ⟨0x14, 4, .read⟩ (withRegs used) = some (.data 2) ∧
    answerTo ⟨0x78, 4, .read⟩ (withRegs used) = some (.data 0x63EB0C00) := by decide
/-- R2: PACK right after reset, as the host places it. -/
theorem test_withFetchWord : ((nextOf (step (State.reset.withFetchWord 32 1))).map State.regs) =
    some { Regs.reset with code := 2 } := by decide
/-- The bus-error policy `faultProgram` stops the host's program. -/
theorem test_policy_fault : faultOf (step (issue (.access ⟨0x22, 4, .read⟩)
    (State.resetOf { Build.reference with busErrorPolicy := .faultProgram }))) = some .busError := by decide
/-- R109: no access while reset is asserted. -/
theorem test_access_in_reset : refusalOf (step (issue (.access ⟨0x14, 4, .read⟩) (assertReset (withRegs used)))) =
    some .accessDuringReset := by decide
/-- R109, R40: the release of reset. -/
theorem test_release : releaseReset (assertReset (withRegs used)) = State.reset := by decide

/-! ### Host programs (R67, R68, programs P1, P2 and P5) -/

/-- P1's line `gen`, as text, and its five writes. -/
theorem test_parse_gen : parseLine "    gen 0x0000018CC251F400, 0x0123456789ABCDEF  ; ldms; ldrnd; pack".toList =
    some [.wr 0x30 0xC251F400, .wr 0x34 0x0000018C, .wr 0x40 0x89ABCDEF, .wr 0x44 0x01234567, .run .pack] := by
  decide
/-- P2's line `ldbytes`, and its four writes. -/
theorem test_parse_ldbytes : parseLine
    "ldbytes 0x00,0x00,0x00,0x00,0x75,0x8F,0xAC,0x30,0x01,0x23,0x45,0x67,0x89,0xAB,0xCD,0xEF".toList =
    some [.wr 0x50 0x00000000, .wr 0x54 0x30AC8F75, .wr 0x58 0x67452301, .wr 0x5C 0xEFCDAB89] := by decide
/-- P1 and P5: a branch, a register by name, a label, a comment. -/
theorem test_parse_lines :
    parseLine "    jnz STATUS, fail".toList = some [.jnz 0x14 "fail"] ∧
    parseLine "fail:".toList = some [.label "fail"] ∧
    parseLine "    wr TS_IN_HI, 0x00000800   ; a comment".toList = some [.wr 0x3C 0x800] ∧
    parseLine "rd cfg -> 0x00163A30".toList = some [.rdIs 0x00 0x00163A30] ∧
    parseLine "HALT".toList = some [.halt] ∧ parseLine "; nothing".toList = some [] ∧
    parseLine "frob 1".toList = none := by decide
/-- Underscores group digits, and a number has a digit (00_scope.md section 5; R67). -/
theorem test_number : number "0x0016_3A30".toList = some 0x163A30 ∧ number "1_000".toList = some 1000 ∧
    number "0x_".toList = none ∧ number "0x".toList = none ∧ number "0x1_".toList = none ∧
    number "_1".toList = none ∧ number "".toList = none := by decide
/-- P1's first line; and reads of which the rules give no value: misaligned (R49), outside the window (R42), of
a block in reset (R109). -/
theorem test_lineClaim : lineClaim ⟨State.reset, [.rdIs 0x00 0x00163A30], 0, []⟩ = true ∧
    lineClaim ⟨State.reset, [.rdIs 0x00 0], 0, []⟩ = false ∧
    lineClaim ⟨State.reset, [.rdIs 0x22 0], 0, []⟩ = false ∧
    lineClaim ⟨State.reset, [.rdIs 0x100 0], 0, []⟩ = false ∧
    lineClaim ⟨assertReset State.reset, [.rdIs 0x20 0], 0, []⟩ = false := by decide
/-- P1's `rdfields`: the reads in the order of its table. -/
theorem test_expand_rdfields : expand .rdfields =
    [.rd 0x78, .rd 0x7C, .rd 0x80, .rd 0x84, .rd 0x70, .rd 0x74] := by decide
/-- `ldms` with a negative instant writes the two's-complement pattern (R68, PK6). -/
theorem test_expand_ldms_negative : expand (.ldms (-1)) = [.wr 0x30 0xFFFFFFFF, .wr 0x34 0xFFFFFFFF] := by decide
/-- `jnz` on a nonzero STATUS goes to its label (P3). -/
theorem test_jnz_taken :
    (nextOf (hostStep ⟨withRegs used, [.jnz 0x14 "l", .halt, .label "l"], 0, []⟩)).map HostRun.line = some 2 := by decide

/-! ### Witnesses: the hypotheses of each statement can be met -/

/-- Registers after an instruction, as the next state of `exec`. -/
theorem exec_of_regsAfter {i : Instr} {s : State} {g : Regs} (h : regsAfter i s = some g) :
    exec i s = next { s with regs := g } := by
  unfold regsAfter at h
  rw [exec_eq_runCommand] at h ⊢
  by_cases hw : s.build.WellFormed
  · rw [runCommand_of_wellFormed hw] at h ⊢
    simp only [nextOf, Option.map_some, Option.some.injEq] at h
    rw [h]
  · rw [runCommand_of_illegal hw] at h
    cases h

/-- The operands of PK10. -/
def pk10 : State := withRegs { used with msIn := 0x18CC251F400, rndIn := 0x0123456789ABCDEF }
/-- The state after PK10. -/
def pk10Done : State := withRegs { used with
  msIn := 0x18CC251F400, rndIn := 0x0123456789ABCDEF, wordOut := 0x758FAC300123456789ABCDEF, code := 0 }
/-- The operands of K5. -/
def k5 : State := withRegs { used with tsIn := 0x1D63EB0C00, rndIn := 0xFEDCBA9876543210 }
/-- The state after K5. -/
def k5Done : State := withRegs { used with
  tsIn := 0x1D63EB0C00, rndIn := 0xFEDCBA9876543210, wordOut := 0x758FAC3002DCBA9876543210, code := 0 }
/-- The operand of U9. -/
def u9 : State := withRegs { used with wordIn := 0x758FAC300123456789ABCDEF, tsOut := 1 }
/-- The state after U9. -/
def u9Done : State := withRegs { used with
  wordIn := 0x758FAC300123456789ABCDEF, tsOut := 0x1D63EB0C00, rndOut := 0x0123456789ABCDEF,
  msOut := 0x18CC251F400, code := 0 }
/-- The operand of T3, and the state after it. -/
def t3Done : State := withRegs { used with
  wordIn := 0x758FAC300123456789ABCDEF, tsOut := 1, bytesOut := 0xEFCDAB896745230130AC8F7500000000, code := 0 }
/-- The operand of F10. -/
def f10 : State := withRegs { used with bytesIn := 0xEFCDAB896745230130AC8F7500000000, wordOut := 0 }
/-- The state after F10. -/
def f10Done : State := withRegs { used with
  bytesIn := 0xEFCDAB896745230130AC8F7500000000, wordOut := 0x758FAC300123456789ABCDEF, code := 0 }
/-- A block in reset, one before its first reset, and one at another base. -/
def inReset : State := assertReset State.reset
def poweredUp : State := { State.reset with phase := .powerUp }
def moved : State := State.resetOf { Build.reference with base := 0x40000100 }

theorem pk10_next : exec .pack pk10 = next pk10Done := exec_of_regsAfter (by decide)
theorem k5_next : exec .packf k5 = next k5Done := exec_of_regsAfter (by decide)
theorem u9_next : exec .unpack u9 = next u9Done := exec_of_regsAfter (by decide)
theorem t3_next : exec .tobytes u9 = next t3Done := exec_of_regsAfter (by decide)
theorem f10_next : exec .frombytes f10 = next f10Done := exec_of_regsAfter (by decide)

/-- R64's three clauses are met at their edges, and none of them is at the words next to them. -/
theorem witness_ReservedWordsAreExactlyTheRest :
    (0x00000010#32).getLsbD 4 = true ∧ (0x80000003#32).getLsbD 31 = true ∧ (0x00000000#32).toNat % 16 = 0 ∧
    6 ≤ (0x00000006#32).toNat % 16 ∧ 6 ≤ (0x0000000F#32).toNat % 16 ∧ ¬ 6 ≤ (0x00000005#32).toNat % 16 ∧
    (∀ j < 32, 4 ≤ j → (0x0000000F#32).getLsbD j = false) := by decide
/-- The range of PACK at its four edges (PK1 to PK4): in, out, in, out. -/
theorem witness_PackWritesWordOrOutOfRange : pk10.build.WellFormed ∧
    codeAfter .pack (withRegs { used with msIn := 0x0000016F5E66E800 }) = some 0 ∧
    codeAfter .pack (withRegs { used with msIn := 0x0000016F5E66E7FF }) = some 2 ∧
    codeAfter .pack (withRegs { used with msIn := 0x0001016F5E66E7FF }) = some 0 ∧
    codeAfter .pack (withRegs { used with msIn := 0x0001016F5E66E800, code := 0 }) = some 2 := by decide
/-- The range of PACKF at its edge (K2, K3). -/
theorem witness_PackfWritesWordOrOutOfRange : k5.build.WellFormed ∧
    codeAfter .packf (withRegs { used with tsIn := 0x0000FFFFFFFFFFFF }) = some 0 ∧
    codeAfter .packf (withRegs { used with tsIn := 0x0001000000000000, code := 0 }) = some 2 := by decide
/-- The reserved bits at their edges: bit 105 is none of them in the default build (U7), 106 and 127 are (U4, U5). -/
theorem witness_UnpackIsolatesFieldsOrInvalid : u9.build.WellFormed ∧
    (∀ j < 128, 48 + 58 ≤ j → (0x00000200000000000000000000000000#128).getLsbD j = false) ∧
    (0x00000400000000000000000000000000#128).getLsbD 106 = true ∧
    (0x80000000000000000000000000000000#128).getLsbD 127 = true ∧
    codeAfter .unpack (withRegs { used with wordIn := 0x00000200000000000000000000000000 }) = some 0 ∧
    codeAfter .unpack (withRegs { used with wordIn := 0x80000000000000000000000000000000 }) = some 1 := by decide
theorem witness_TobytesWritesBigEndianBytes : u9.build.WellFormed := by decide
/-- The largest word FROMBYTES accepts and the first it refuses (F2, F4). -/
theorem witness_FrombytesWritesWordOrInvalid : f10.build.WellFormed ∧
    codeAfter .frombytes (withRegs { used with bytesIn := 0xFFFFFFFFFFFFFFFFFFFFFFFFFF030000 }) = some 0 ∧
    codeAfter .frombytes (withRegs { used with bytesIn := 0x00000000000000000000000000040000 }) = some 1 := by decide
theorem witness_ReservedWordOnlySetsUnsupported :
    Ready u9 ∧ (0x80000003#32).getLsbD 31 = true ∧ (0x00000000#32).toNat % 16 = 0 ∧
    6 ≤ (0x00000006#32).toNat % 16 := by decide
theorem witness_StepRunsTheDecodedInstruction : Ready (State.reset.withFetchWord 32 3) ∧
    decode 3 = .ok .unpack ∧ (State.reset.withFetchWord 32 3).pending =
      .access ⟨(State.reset.withFetchWord 32 3).build.base + 0x10, 4, .write 3⟩ :: [] := ⟨by decide, rfl, rfl⟩
/-- For each of the three instructions; and the bytes next to the excluded ones read the same. -/
theorem witness_WordOutCommandsFrame :
    exec .pack pk10 = next pk10Done ∧ exec .packf k5 = next k5Done ∧ exec .frombytes f10 = next f10Done ∧
    ∀ off ∈ [0x00, 0x13, 0x18, 0x5F, 0x70, 0xFF], windowByte f10Done off = windowByte f10 off :=
  ⟨pk10_next, k5_next, f10_next, by decide⟩
theorem witness_UnpackFrame : exec .unpack u9 = next u9Done ∧
    ∀ off ∈ [0x00, 0x13, 0x18, 0x6F, 0x88, 0xFF], windowByte u9Done off = windowByte u9 off := ⟨u9_next, by decide⟩
theorem witness_TobytesFrame : exec .tobytes u9 = next t3Done ∧
    ∀ off ∈ [0x00, 0x13, 0x18, 0x8F, 0xA0, 0xFF], windowByte t3Done off = windowByte u9 off := ⟨t3_next, by decide⟩
/-- Each command that can fail, failing. -/
theorem witness_FailedCommandWritesOnlyCode :
    exec .pack (withRegs { used with code := 0 }) = next (withRegs { used with code := 2 }) ∧
    exec .packf (withRegs { used with tsIn := 0x0001000000000000, code := 0 }) =
      next (withRegs { used with tsIn := 0x0001000000000000, code := 2 }) ∧
    exec .unpack (withRegs { used with wordIn := 0x00000400000000000000000000000000 }) =
      next (withRegs { used with wordIn := 0x00000400000000000000000000000000, code := 1 }) ∧
    exec .frombytes (withRegs { used with bytesIn := 0x80 }) = next (withRegs { used with bytesIn := 0x80, code := 1 }) ∧
    (2#3) ≠ 0 ∧ (1#3) ≠ 0 :=
  ⟨exec_of_regsAfter (by decide), exec_of_regsAfter (by decide), exec_of_regsAfter (by decide),
    exec_of_regsAfter (by decide), by decide, by decide⟩
theorem witness_CodesEachCommandReports :
    exec .pack pk10 = next pk10Done ∧ exec .packf k5 = next k5Done ∧ exec .unpack u9 = next u9Done ∧
    exec .tobytes u9 = next t3Done ∧ exec .frombytes f10 = next f10Done :=
  ⟨pk10_next, k5_next, u9_next, t3_next, f10_next⟩
/-- Two blocks with the same operands and other results. -/
theorem witness_CommandDependsOnOperandsOnly :
    (withRegs used).build.WellFormed ∧ State.reset.build = (withRegs used).build ∧
    State.reset.regs.wordIn = used.wordIn ∧ State.reset.regs.msIn = used.msIn ∧ State.reset.regs.tsIn = used.tsIn ∧
    State.reset.regs.rndIn = used.rndIn ∧ State.reset.regs.bytesIn = used.bytesIn ∧
    State.reset.regs.wordOut ≠ used.wordOut := by decide
theorem witness_EveryCommandWordCompletes : Ready u9 ∧ Ready moved := by decide
theorem witness_ValidWordIsItsTwoFields : Build.reference.WellFormed ∧
    ValidWord Build.reference 0x000003FFFFFFFFFFFFFFFFFFFFFFFFFF ∧
    ¬ ValidWord Build.reference 0x00000400000000000000000000000000 := by decide
/-- P-MO: an earlier timestamp with a larger random field; and one timestamp with two random fields. -/
theorem witness_ValidWordsOrderByTimestamp : Build.reference.WellFormed ∧
    ValidWord Build.reference 0x758FAC3003FFFFFFFFFFFFFF ∧ ValidWord Build.reference 0x758FAC300400000000000000 ∧
    timestampField Build.reference 0x758FAC3003FFFFFFFFFFFFFF < timestampField Build.reference 0x758FAC300400000000000000 ∧
    ValidWord Build.reference 5 ∧ ValidWord Build.reference 6 ∧
    timestampField Build.reference 5 = timestampField Build.reference 6 := by decide
theorem witness_PackIsPackfOfDelta : pk10.build.WellFormed := by decide
/-- P-MO, with the largest random bits at the earlier instant. -/
theorem witness_PackIsMonotonic :
    let s := withRegs { used with msIn := 0x18CC251F400, rndIn := 0x03FFFFFFFFFFFFFF }
    let s' := withRegs { used with msIn := 0x18CC251F401, rndIn := 0 }
    s.build.WellFormed ∧ s'.build = s.build ∧ 0 ≤ s.regs.msIn.toInt - 1577836800000 ∧
    s.regs.msIn.toInt < s'.regs.msIn.toInt ∧ s'.regs.msIn.toInt - 1577836800000 < 2 ^ s.build.wT := by decide
theorem witness_PackedWordsAreValid :
    exec .pack pk10 = next pk10Done ∧ pk10Done.regs.code = 0 ∧ exec .packf k5 = next k5Done ∧ k5Done.regs.code = 0 :=
  ⟨pk10_next, rfl, k5_next, rfl⟩
theorem witness_UnpackInvertsPacking :
    exec .pack pk10 = next pk10Done ∧ pk10Done.regs.code = 0 ∧ exec .packf k5 = next k5Done ∧ k5Done.regs.code = 0 :=
  ⟨pk10_next, rfl, k5_next, rfl⟩
theorem witness_UnpackInstantFits : exec .unpack u9 = next u9Done ∧ u9Done.regs.code = 0 := ⟨u9_next, rfl⟩
theorem witness_RepackGivesTheWordBack : exec .unpack u9 = next u9Done ∧ u9Done.regs.code = 0 ∧
    0x1D63EB0C00 < 2 ^ u9.build.wT ∧ (0x0123456789ABCDEF : Word64).toNat < 2 ^ u9.build.wR ∧
    packWord u9.build 0x1D63EB0C00 0x0123456789ABCDEF = u9.regs.wordIn := ⟨u9_next, rfl, by decide, by decide, by decide⟩
/-- T3 and F10. -/
theorem witness_BinaryFormRoundTrips : ValidWord u9.build u9.regs.wordIn ∧ exec .tobytes u9 = next t3Done ∧
    exec .frombytes f10 = next f10Done ∧ f10Done.regs.code = 0 := ⟨by decide, t3_next, f10_next, rfl⟩
theorem witness_BytesRegistersAreSwappedWordRegisters : exec .tobytes u9 = next t3Done ∧
    exec .frombytes f10 = next f10Done ∧ f10Done.regs.code = 0 := ⟨t3_next, f10_next, rfl⟩
/-- The first and the last byte (F10: 00 and EF). -/
theorem witness_BytesGroupsAreInStreamOrder : windowByte f10 0x50 = 0 ∧ windowByte f10 0x5F = 0xEF := by decide
/-- CFG at the edges of the legal range. -/
theorem witness_CfgReportsTheBuild : u9.build.WellFormed ∧ u9.phase = .running ∧
    u9.build.wT = 48 ∧ u9.build.wR = 58 ∧ Build.split4362.wT = 43 ∧ Build.split4362.wR = 62 ∧
    (State.resetOf { Build.reference with wT := 1, wR := 1 }).build.WellFormed ∧
    (State.resetOf { Build.reference with wT := 62, wR := 64 }).build.WellFormed := by decide
/-- The lowest and the highest legal offset, in two places of the map. -/
theorem witness_LegalReadChangesNothing : Ready u9 ∧ Ready moved ∧
    ∀ off ∈ [0x00, 0x10, 0xFC], off < 0x100 ∧ off % 4 = 0 := by decide
/-- The four edges of the operand registers, and another register beside each. -/
theorem witness_OperandWriteStoresTheWord : Ready u9 ∧
    (∀ off ∈ [0x20, 0x44, 0x50, 0x5C], (0x20 ≤ off ∧ off < 0x48 ∨ 0x50 ≤ off ∧ off < 0x60) ∧ off % 4 = 0) ∧
    (∀ off ∈ [0x1C, 0x48, 0x4C, 0x60], ¬ (0x20 ≤ off ∧ off < 0x48 ∨ 0x50 ≤ off ∧ off < 0x60)) := by decide
theorem witness_ReadOnlyWriteIsIgnored : Ready u9 ∧ ∀ off ∈ [0x00, 0x08, 0x0C, 0x14, 0x60, 0x84, 0x90, 0x9C],
    (off = 0x00 ∨ off = 0x08 ∨ off = 0x0C ∨ off = 0x14 ∨ 0x60 ≤ off ∧ off < 0x88 ∨ 0x90 ≤ off ∧ off < 0xA0) ∧
      off % 4 = 0 := by decide
theorem witness_ReservedOffsetReadsZeroIgnoresWrites : Ready u9 ∧
    ∀ off ∈ [0x04, 0x18, 0x1C, 0x48, 0x4C, 0x88, 0x8C, 0xA0, 0xFC],
    (off = 0x04 ∨ off = 0x18 ∨ off = 0x1C ∨ off = 0x48 ∨ off = 0x4C ∨ off = 0x88 ∨ off = 0x8C ∨
      0xA0 ≤ off ∧ off < 0x100) ∧ off % 4 = 0 := by decide
/-- Each offset of the window falls under exactly one of the four rules of a legal write. -/
theorem witness_write_clauses_are_disjoint : ∀ n < 64,
    (if 0x20 ≤ 4 * n ∧ 4 * n < 0x48 ∨ 0x50 ≤ 4 * n ∧ 4 * n < 0x60 then 1 else 0) +
    (if 4 * n = 0x00 ∨ 4 * n = 0x08 ∨ 4 * n = 0x0C ∨ 4 * n = 0x14 ∨ 0x60 ≤ 4 * n ∧ 4 * n < 0x88 ∨
      0x90 ≤ 4 * n ∧ 4 * n < 0xA0 then 1 else 0) +
    (if 4 * n = 0x04 ∨ 4 * n = 0x18 ∨ 4 * n = 0x1C ∨ 4 * n = 0x48 ∨ 4 * n = 0x4C ∨ 4 * n = 0x88 ∨ 4 * n = 0x8C ∨
      0xA0 ≤ 4 * n ∧ 4 * n < 0x100 then 1 else 0) + (if 4 * n = 0x10 then 1 else 0) = 1 := by decide
/-- Both kinds of illegal access, at both ends of the window, under both policies. -/
theorem witness_IllegalAccessIsBusError :
    Ready u9 ∧ u9.build.busErrorPolicy = .report ∧
    Ready (State.resetOf { Build.reference with busErrorPolicy := .faultProgram }) ∧
    (∀ a ∈ [(⟨0x10, 1, .write 1⟩ : Access), ⟨0x22, 4, .read⟩, ⟨0x00, 8, .read⟩, ⟨0xFF, 1, .read⟩],
      u9.build.base ≤ a.addr ∧ a.addr < u9.build.base + 0x100 ∧ (a.size ≠ 4 ∨ a.addr % 4 ≠ 0)) := by decide
/-- The address below the window and the first one above it. -/
theorem witness_OutsideTheWindowNothingChanges : moved.build.WellFormed ∧
    0x400000FF < moved.build.base ∧ moved.build.base + 0x100 ≤ 0x40000200 := by decide
theorem witness_TornGroupHoldsTheMixture : Ready u9 := by decide
/-- A step that changes an operand, for each of the three causes. A loss of power draws free values, so of it only
the step is shown. -/
theorem witness_OperandsChangeOnlyByWritesAndReset :
    (nextOf (step (issue (.access ⟨0x20, 4, .write 7⟩) State.reset))).map (fun t => t.regs.wordIn) = some 7 ∧
    State.reset.regs.wordIn ≠ 7 ∧
    (nextOf (step (issue .releaseReset (assertReset u9)))).map (fun t => t.regs.wordIn) = some 0 ∧
    u9.regs.wordIn ≠ 0 ∧ (nextOf (step (issue .powerCycle u9))).isSome := by decide
/-- A step that changes a result, by a command and by the release of reset. -/
theorem witness_ResultsChangeOnlyByCommandsAndReset :
    (nextOf (step (issue (.access ⟨0x10, 4, .write 1⟩) State.reset))).map (fun t => t.regs.code) = some 2 ∧
    State.reset.regs.code ≠ 2 ∧
    (nextOf (step (issue .releaseReset (assertReset u9)))).map (fun t => t.regs.code) = some 0 ∧
    u9.regs.code ≠ 0 := by decide
/-- With nothing on its way, and with two inputs on their way. -/
theorem witness_StepTakesOneInputAndKeepsTheBuild : step u9 = next u9 ∧
    (nextOf (step { u9 with pending := [.assertReset, .releaseReset] })).map State.pending = some [.releaseReset] :=
  ⟨rfl, by decide⟩
theorem witness_LatencyHasNoEffect : u9.build.WellFormed ∧ 1 ≤ 7 := by decide
theorem witness_WindowMovesWithItsBase : Ready u9 ∧ 0x40000100 % 0x100 = 0 ∧ 0xFC < 0x100 ∧ 0xFC % 4 = 0 := by decide
/-- The invariant in a state with results, one no run from reset with nothing placed reaches, and a step from it. -/
theorem witness_EveryStepKeepsResultsConsistent : Inv u9Done ∧
    (nextOf (step (issue (.access ⟨0x10, 4, .write 1⟩) u9Done))).isSome ∧ ¬ Inv (withRegs { used with code := 7 }) := by
  decide
/-- Each of the four ways out of the legal range. -/
theorem witness_IllegalBuildIsRefused :
    (State.resetOf { Build.reference with wT := 0 }).build.wT < 1 ∧
    62 < (State.resetOf { Build.reference with wT := 63 }).build.wT ∧
    (State.resetOf { Build.reference with wR := 0 }).build.wR < 1 ∧
    64 < (State.resetOf { Build.reference with wR := 65 }).build.wR := by decide
/-- A legal access when running, an access elsewhere in reset, and each other input. -/
theorem witness_DutifulHostNeverStopsTheBlock : u9.build.WellFormed ∧ HostDuty u9 (.access ⟨0x10, 4, .write 3⟩) ∧
    inReset.build.WellFormed ∧ HostDuty inReset (.access ⟨0x100, 1, .read⟩) ∧ HostDuty inReset .releaseReset ∧
    HostDuty poweredUp .assertReset ∧ HostDuty poweredUp .powerCycle :=
  ⟨by decide, fun _ => by decide, by decide, fun h => absurd h (by decide), trivial, trivial, trivial⟩
theorem witness_ResetGivesTheResetValues : u9.build.WellFormed ∧ poweredUp.build.WellFormed := by decide
theorem witness_NoAccessInResetOrBeforeIt : inReset.build.WellFormed ∧ InWindow inReset.build 0x00 ∧
    InWindow inReset.build 0xFF ∧ inReset.phase = .inReset ∧ poweredUp.build.WellFormed ∧
    poweredUp.phase = .powerUp := by decide
theorem witness_CommandsRightAfterReset : Build.reference.WellFormed ∧ Build.split4362.WellFormed := by decide
theorem witness_HorizonOfBothLayouts :
    (withRegs { used with msIn := 283052813510655 }).build.WellFormed ∧ Build.reference.wT = 48 ∧
    (withRegs4362 { used with msIn := 10373929822207 }).build.WellFormed ∧ Build.split4362.wT = 43 := by decide
/-- Each of the five expansions, after one line and before another. -/
theorem witness_LoadPseudosSetTheirGroup : ∀ p ∈ [Pseudo.ldword 1, .ldms (-1), .ldts 1, .ldrnd 1,
      .ldbytes (Vector.replicate 16 1)],
    let h : HostRun := ⟨State.reset, [.rd 0] ++ expand p ++ [.halt], 1, []⟩
    Ready h.block ∧ h.line = [Line.rd 0].length := by decide
theorem witness_MovOutInCopiesTheWord :
    let h : HostRun := ⟨u9Done, [.rd 0] ++ expand .movOutIn ++ [.halt], 1, []⟩
    Ready h.block ∧ h.line = [Line.rd 0].length := by decide
/-- The program of `test_jnz_taken`, and one with `jmp`. -/
theorem witness_JumpsFollowTheValueRead :
    (∀ i ∈ [Line.jnz 0x14 "l", .jmp "l"],
      let h : HostRun := ⟨withRegs used, [i, .halt, .label "l"], 0, []⟩
      Ready h.block ∧ 0x14 < 0x100 ∧ 0x14 % 4 = 0 ∧ h.prog[2]? = some (.label "l") ∧
      (∀ m < 2, h.prog[m]? ≠ some (.label "l")) ∧ h.prog[h.line]? = some i) ∧
    memRead (withRegs used) 0x14 ≠ 0 ∧ memRead State.reset 0x14 = 0 := by decide
/-- At `halt`, and past the last line. -/
theorem witness_EndedRunStays : ended ⟨State.reset, [.rd 0, .halt], 1, []⟩ = true ∧
    ended ⟨State.reset, [.rd 0], 1, []⟩ = true ∧ ended ⟨State.reset, [.rd 0], 0, []⟩ = false := by decide
/-- A true statement at the last offset of the window, and one of each kind that is false. -/
theorem witness_StatedReadsGiveTheirValue :
    let run (off : Nat) : HostRun := ⟨State.reset, [.rdIs off 0], 0, []⟩
    (∀ off ∈ [0x04, 0xFC, 0x100, 0x22], (run off).prog[(run off).line]? = some (.rdIs off 0)) ∧
    lineClaim (run 0xFC) = true ∧ 0x100 ≤ 0x100 ∧ 0x22 % 4 ≠ 0 ∧ ¬ Ready (assertReset State.reset) := by decide

end Sys2Proof.Machine.Tests
end

/-! ### The order of identifier words (00_scope.md) -/

namespace Sys2Proof.Machine

theorem one_le_wR {b : Build} (hb : b.WellFormed) : 1 ≤ b.wR := by omega

theorem timestampField_eq_div {b : Build} (hb : b.WellFormed) {w : Word128} (hw : ValidWord b w) :
    timestampField b w = w.toNat / 2 ^ b.wR :=
  timestampField_of_valid (one_le_wR hb) ((validWord_iff (widths_le hb) w).1 hw)

/-- A valid word is its two fields side by side (R3, R4). -/
theorem toNat_eq_fields {b : Build} (hb : b.WellFormed) {w : Word128} (hw : ValidWord b w) :
    w.toNat = 2 ^ b.wR * timestampField b w + randomField b w := by
  rw [timestampField_eq_div hb hw, randomField_eq (one_le_wR hb), Nat.div_add_mod]

/-- Settles O19: the timestamp field is the quotient by `2^W_R`, so it decides the order where it differs; where it
is the same, the words differ by their remainders, the random fields. -/
theorem validWordsOrderByTimestamp : Obligations.ValidWordsOrderByTimestamp := by
  intro b v w hb hv hw
  constructor
  · intro hlt
    rw [timestampField_eq_div hb hv, timestampField_eq_div hb hw] at hlt
    exact Nat.lt_of_div_lt_div hlt
  · intro heq
    rw [toNat_eq_fields hb hv, toNat_eq_fields hb hw, heq, Nat.add_lt_add_iff_left]

end Sys2Proof.Machine

/-! ### CFG and the reserved offsets (10_state.md) -/

namespace Sys2Proof.Machine

open BitVec (extractLsb'_append_eq_of_le extractLsb'_append_eq_left extractLsb'_append_eq_right)

theorem memRead_cfg (s : State) : memRead s 0x00 = cfgWord s.build := memRead_regOffset s .cfg

theorem cfgWord_wT (b : Build) : (cfgWord b).extractLsb' 0 8 = BitVec.ofNat 8 b.wT := extractLsb'_append_eq_right

theorem cfgWord_wR (b : Build) : (cfgWord b).extractLsb' 8 8 = BitVec.ofNat 8 b.wR :=
  (extractLsb'_append_eq_of_le (by decide)).trans extractLsb'_append_eq_right

theorem cfgWord_rsv (b : Build) : (cfgWord b).extractLsb' 16 8 = BitVec.ofNat 8 b.rsv :=
  (extractLsb'_append_eq_of_le (by decide)).trans <|
    (extractLsb'_append_eq_of_le (by decide)).trans extractLsb'_append_eq_right

theorem cfgWord_top (b : Build) : (cfgWord b).extractLsb' 24 8 = 0 :=
  (extractLsb'_append_eq_of_le (by decide)).trans <|
    (extractLsb'_append_eq_of_le (by decide)).trans extractLsb'_append_eq_left

/-- Settles O30: CFG is four bytes, each wide enough for what it reports in a legal build; it is neither CMD nor an
operand register, so a write to it stores nothing. -/
theorem cfgReportsTheBuild : Obligations.CfgReportsTheBuild := by
  intro s hs
  simp only [memRead_cfg, cfgWord_wT, cfgWord_wR, cfgWord_rsv, Build.rsv, BitVec.toNat_ofNat]
  refine ⟨?_, ?_, ?_, cfgWord_top s.build, ?_, ?_, ?_⟩
  · exact Nat.mod_eq_of_lt (by omega)
  · exact Nat.mod_eq_of_lt (by omega)
  · exact Nat.mod_eq_of_lt (by omega)
  · intro hT hR
    simp [cfgWord, Build.rsv, hT, hR]
  · intro hT hR
    simp [cfgWord, Build.rsv, hT, hR]
  · intro v hrun
    exact step_write_reg (r := .cfg) ⟨hs, hrun⟩ (by decide) v

/-- The gaps of R14's table hold no register. -/
theorem regAt_reserved {off : Nat}
    (h : off = 0x04 ∨ off = 0x18 ∨ off = 0x1C ∨ off = 0x48 ∨ off = 0x4C ∨ off = 0x88 ∨ off = 0x8C ∨ 0xA0 ≤ off) :
    regAt off = none := by
  rw [regAt_eq_none_iff]
  intro r
  cases r <;> simp only [regOffset] <;> omega

/-- Settles O34: no register stands at a reserved offset, so the read answers 0, and the write stores nothing and
starts no command. -/
theorem reservedOffsetReadsZeroIgnoresWrites : Obligations.ReservedOffsetReadsZeroIgnoresWrites := by
  intro s off v hs hoff hal
  have hnone : regAt off = none := regAt_reserved (by omega)
  have hlt : off < 0x100 := by omega
  constructor
  · rw [step_read hs hlt hal, memRead_reserved hnone]
    rfl
  · rw [step_write hs hlt hal, memWrite_reserved hnone]
    rfl

end Sys2Proof.Machine

/-! ### The read-only registers (20_memory.md) -/

namespace Sys2Proof.Machine

/-- CFG, EPOCH, STATUS and the results are read-only registers in R14's table. -/
theorem exists_readOnly_reg {off : Nat}
    (h : off = 0x00 ∨ off = 0x08 ∨ off = 0x0C ∨ off = 0x14 ∨ 0x60 ≤ off ∧ off < 0x88 ∨ 0x90 ≤ off ∧ off < 0xA0)
    (hal : off % 4 = 0) : ∃ r, regOffset r = off ∧ regAccess r = .readOnly := by
  obtain ⟨n, rfl⟩ := Nat.dvd_of_mod_eq_zero hal
  have table : ∀ n < 40, (4 * n = 0x00 ∨ 4 * n = 0x08 ∨ 4 * n = 0x0C ∨ 4 * n = 0x14 ∨
      0x60 ≤ 4 * n ∧ 4 * n < 0x88 ∨ 0x90 ≤ 4 * n ∧ 4 * n < 0xA0) →
      ∃ r ∈ allRegs, regOffset r = 4 * n ∧ regAccess r = .readOnly := by decide
  obtain ⟨r, -, hr⟩ := table n (by omega) h
  exact ⟨r, hr⟩

/-- A write to a read-only register changes the answer alone (R52). -/
theorem step_write_readOnly {s : State} (h : Ready s) {r : Reg} (hr : regAccess r = .readOnly) (v : Word32) :
    step (issue (.access ⟨s.build.base + regOffset r, 4, .write v⟩) s) = .next (respond .done s) := by
  rw [step_write_reg h (by simp [hr]), writeReg_of_not_readWrite (by simp [hr])]

/-- Settles O33: at each of these offsets stands a read-only register, and a write to one stores nothing and starts
no command. -/
theorem readOnlyWriteIsIgnored : Obligations.ReadOnlyWriteIsIgnored := by
  intro s off v hs hoff hal
  obtain ⟨r, rfl, hr⟩ := exists_readOnly_reg hoff hal
  exact step_write_readOnly hs hr v

end Sys2Proof.Machine

/-! ### The command words (30_encoding.md) -/

namespace Sys2Proof

/-- RSVD and OP are all 32 bits of a command word (R61). -/
theorem eq_of_fields_eq {c d : Word32} (hrsvd : rsvdField c = rsvdField d) (hop : opField c = opField d) : c = d := by
  have append_fields (w : Word32) : w = rsvdField w ++ opField w := by
    rw [rsvdField, opField, BitVec.extractLsb'_append_extractLsb'_eq_extractLsb' (by decide)]
    exact BitVec.extractLsb'_eq_self.symm
  rw [append_fields c, append_fields d, hrsvd, hop]

theorem rsvdField_encode (i : Instr) : rsvdField (encode i) = 0#28 := by
  cases i <;> rfl

/-- The table of R63 read both ways: an operation has one OP value, the one its command word carries. -/
theorem opOf_eq_some_iff (op : BitVec 4) (i : Instr) : opOf op = some i ↔ op = opField (encode i) := by
  cases i <;> revert op <;> decide

/-- The two tests of R65 that a word has to pass. -/
theorem decode_eq_ok_iff (c : Word32) (i : Instr) :
    decode c = .ok i ↔ rsvdField c = 0#28 ∧ opOf (opField c) = some i := by
  by_cases hrsvd : rsvdField c = 0#28
  · cases hop : opOf (opField c) <;> simp [decode, hrsvd, hop]
  · simp [decode, hrsvd]

theorem decode_eq_ok_iff_eq_encode (c : Word32) (i : Instr) : decode c = .ok i ↔ c = encode i := by
  rw [decode_eq_ok_iff, opOf_eq_some_iff, ← rsvdField_encode i]
  constructor
  · rintro ⟨hrsvd, hop⟩
    exact eq_of_fields_eq hrsvd hop
  · rintro rfl
    exact ⟨rfl, rfl⟩

/-- Settles O1: a word passes the decoder's two tests for `i` exactly when both its fields are those of `i`'s command
word, and the fields are the whole word; the five words are read off the table of R63. -/
theorem decodeAcceptsExactlyTheEncodings : Obligations.DecodeAcceptsExactlyTheEncodings :=
  ⟨decode_eq_ok_iff_eq_encode, rfl, rfl, rfl, rfl, rfl⟩

end Sys2Proof

/-! ### Packing (41_pack.md) -/

namespace Sys2Proof.Machine

/-- The pack formula as a sum: the masked random bits stay below the shifted timestamp (R79, R80). -/
theorem packWord_eq_ofNat (b : Build) (d : Nat) (r : Word64) :
    packWord b d r = BitVec.ofNat 128 (d * 2 ^ b.wR + r.toNat % 2 ^ b.wR) := by
  rw [packWord, land_mask, ← Nat.shiftLeft_add_eq_or_of_lt (Nat.mod_lt _ (by positivity)), Nat.shiftLeft_eq]

/-- The pack step with both ends written out (R78). -/
theorem packField_eq (d : Int) (b : Build) (g : Regs) :
    packField d b g = if 0 ≤ d ∧ d < 2 ^ b.wT then
        { g with wordOut := BitVec.ofNat 128 (d.toNat * 2 ^ b.wR + g.rndIn.toNat % 2 ^ b.wR), code := 0 }
      else { g with code := 2 } := by
  obtain ⟨h, e⟩ | ⟨h, e⟩ := packField_cases d b g
  · rw [e, if_pos h, packWord_eq_ofNat]
    rfl
  · rw [e, if_neg h]
    rfl

theorem packField_of_representable {d : Int} {b : Build} (h : Representable b d) (g : Regs) :
    packField d b g = complete { g with wordOut := packWord b d.toNat g.rndIn } := if_pos h

theorem packField_of_not_representable {d : Int} {b : Build} (h : ¬ Representable b d) (g : Regs) :
    packField d b g = raise .outOfRange g := if_neg h

theorem packField_code (d : Int) (b : Build) (g : Regs) :
    (packField d b g).code = if 0 ≤ d ∧ d < 2 ^ b.wT then 0 else 2 := by
  rw [packField_eq]
  split <;> rfl

theorem representable_natCast (b : Build) (n : Nat) : Representable b n ↔ n < 2 ^ b.wT := by
  simp only [Representable, Int.natCast_nonneg, true_and]
  norm_cast

theorem bodyOf_pack (b : Build) (g : Regs) :
    bodyOf .pack b g = packField (g.msIn.toInt - 1577836800000) b g := rfl

theorem bodyOf_packf (b : Build) (g : Regs) : bodyOf .packf b g = packField g.tsIn.toNat b g := rfl

/-- Settles O4: the body of PACK is the pack step on the exact difference, and its two ends are the two cases. -/
theorem packWritesWordOrOutOfRange : Obligations.PackWritesWordOrOutOfRange := by
  refine ⟨rfl, fun s hs => ?_⟩
  rw [exec_of_wellFormed .pack hs, bodyOf_pack, packField_eq]

/-- Settles O5: the body of PACKF is the pack step on the unsigned TS_IN, which is never negative, so only the upper
bound is left of the range check. -/
theorem packfWritesWordOrOutOfRange : Obligations.PackfWritesWordOrOutOfRange := by
  refine ⟨rfl, fun s hs => ?_⟩
  rw [exec_of_wellFormed .packf hs, bodyOf_packf, packField_eq]
  simp only [representable_natCast, Int.toNat_natCast]

/-- The unsigned reading of a 64-bit pattern is the integer it was made of, where that fits 63 bits. -/
theorem toNat_ofInt_of_nonneg {d : Int} (h0 : 0 ≤ d) (h63 : d < 2 ^ 63) : ((BitVec.ofInt 64 d).toNat : Int) = d := by
  rw [BitVec.toNat_ofInt]
  omega

/-- The 64-bit pattern of a negative difference of R81 reads as a number of at least `2^62`: above every timestamp
field. -/
theorem le_toNat_ofInt_of_neg {d : Int} (hneg : d < 0) (hlow : -2 ^ 63 - 1577836800000 ≤ d) :
    2 ^ 62 ≤ (BitVec.ofInt 64 d).toNat := by
  rw [BitVec.toNat_ofInt]
  omega

/-- PACKF on the pattern of a difference takes the same end as PACK on the exact difference (R81). -/
theorem packField_toNat_ofInt {b : Build} (hb : b.WellFormed) {d : Int} (hlow : -2 ^ 63 - 1577836800000 ≤ d)
    (h63 : d < 2 ^ 63) (g : Regs) : packField (BitVec.ofInt 64 d).toNat b g = packField d b g := by
  by_cases h0 : 0 ≤ d
  · rw [toNat_ofInt_of_nonneg h0 h63]
  · have hmax : 2 ^ b.wT ≤ 2 ^ 62 := Nat.pow_le_pow_right (by decide) (by omega)
    have hpat : ¬ Representable b ((BitVec.ofInt 64 d).toNat : Int) := by
      rw [representable_natCast, Nat.not_lt]
      exact hmax.trans (le_toNat_ofInt_of_neg (Int.not_le.mp h0) hlow)
    rw [packField_of_not_representable hpat, packField_of_not_representable fun h => h0 h.1]

/-- The pack step reads no operand but RND_IN, so a change of TS_IN shows in TS_IN alone. -/
theorem packField_tsIn (d : Int) (b : Build) (g : Regs) (v : Word64) :
    packField d b { g with tsIn := v } = { packField d b g with tsIn := v } := by
  rw [packField_eq, packField_eq]
  split <;> rfl

/-- The body of PACKF, with TS_IN the pattern of the difference, is the body of PACK beside that TS_IN: MS_IN is a
signed 64-bit number, so the difference is in the range of the pattern lemmas. -/
theorem bodyOf_packf_delta {b : Build} (hb : b.WellFormed) (g : Regs) :
    bodyOf .packf b { g with tsIn := BitVec.ofInt 64 (g.msIn.toInt - 1577836800000) } =
      { bodyOf .pack b g with tsIn := BitVec.ofInt 64 (g.msIn.toInt - 1577836800000) } := by
  have hge := g.msIn.le_toInt
  have hlt := g.msIn.toInt_lt
  rw [bodyOf_pack, bodyOf_packf, packField_toNat_ofInt hb (by omega) (by omega), packField_tsIn]

/-- Settles O20: the two bodies leave the same registers beside TS_IN, so the same WORD_OUT and CODE. -/
theorem packIsPackfOfDelta : Obligations.PackIsPackfOfDelta := by
  intro s hs
  have hword := congrArg Regs.wordOut (bodyOf_packf_delta hs s.regs)
  have hcode := congrArg Regs.code (bodyOf_packf_delta hs s.regs)
  exact ⟨_, _, exec_of_wellFormed .pack hs, exec_of_wellFormed .packf hs, hword.symm, hcode.symm,
    packField_code _ _ _⟩

/-- A greater timestamp field makes a greater word, whatever the random bits (R82). -/
theorem packWord_lt_packWord {b : Build} (hb : b.WellFormed) {d d' : Nat} (hlt : d < d') (hd' : d' < 2 ^ b.wT)
    (r r' : Word64) : (packWord b d r).toNat < (packWord b d' r').toNat := by
  have hdiv : (packWord b d r).toNat / 2 ^ b.wR < (packWord b d' r').toNat / 2 ^ b.wR := by
    rwa [packWord_div (widths_le hb) (hlt.trans hd'), packWord_div (widths_le hb) hd']
  exact Nat.lt_of_div_lt_div hdiv

/-- Settles O21: both instants are representable, so both PACKs write their word, and the differences, in the order
of the instants, are the words' timestamp fields. -/
theorem packIsMonotonic : Obligations.PackIsMonotonic := by
  intro s s' hs hb h0 hlt hmax
  have hrep : Representable s.build (s.regs.msIn.toInt - 1577836800000) := ⟨h0, by omega⟩
  have hrep' : Representable s.build (s'.regs.msIn.toInt - 1577836800000) := ⟨by omega, hmax⟩
  refine ⟨_, _, exec_of_wellFormed .pack hs, exec_of_wellFormed .pack (hb ▸ hs), ?_⟩
  rw [hb, bodyOf_pack, bodyOf_pack, packField_of_representable hrep, packField_of_representable hrep']
  exact ⟨rfl, rfl, packWord_lt_packWord hs (by omega) (toNat_lt_of_representable hrep') _ _⟩

/-- The bits of a valid word from `W_T + W_R` up are 0 (R2, R84). -/
theorem getLsbD_of_validWord {b : Build} (hb : b.WellFormed) {w : Word128} (hw : ValidWord b w) {j : Nat}
    (hj : b.wT + b.wR ≤ j) : w.getLsbD j = false := by
  have hlt := (validWord_iff (widths_le hb) w).1 hw
  exact Nat.testBit_lt_two_pow (hlt.trans_le (Nat.pow_le_pow_right (by decide) hj))

/-- A pack step that reports OK has written a word with zero reserved bits and the fields it was given (R83). -/
theorem packField_fields_of_code_zero {b : Build} (hb : b.WellFormed) {d : Int} {g : Regs}
    (h : (packField d b g).code = 0) :
    (∀ j, b.wT + b.wR ≤ j → (packField d b g).wordOut.getLsbD j = false) ∧
      (timestampField b (packField d b g).wordOut : Int) = d ∧
      randomField b (packField d b g).wordOut = g.rndIn.toNat % 2 ^ b.wR := by
  obtain ⟨hrep, e⟩ := packField_of_code_zero h
  obtain ⟨hvalid, hts, hrnd⟩ := packWord_fields hb (toNat_lt_of_representable hrep) g.rndIn
  rw [e, complete_wordOut]
  exact ⟨fun _ => getLsbD_of_validWord hb hvalid, by rw [hts, Int.toNat_of_nonneg hrep.1], hrnd⟩

/-- Settles O22: PACK and PACKF are the pack step on the difference and on TS_IN, and the step writes a valid word
whose fields are its operands. -/
theorem packedWordsAreValid : Obligations.PackedWordsAreValid := by
  intro i s t hi hexec hcode
  obtain ⟨hb, rfl⟩ := exec_next hexec
  obtain rfl | rfl := hi
  · exact packField_fields_of_code_zero hb hcode
  · exact packField_fields_of_code_zero hb hcode

end Sys2Proof.Machine

/-! ### Isolating the fields (42_unpack.md) -/

namespace Sys2Proof.Machine

theorem bodyOf_unpack (b : Build) (g : Regs) : bodyOf .unpack b g = unpackBody b g := rfl

theorem unpackBody_of_valid {b : Build} {g : Regs} (h : ValidWord b g.wordIn) : unpackBody b g = complete { g with
    tsOut := BitVec.ofNat 64 (timestampField b g.wordIn)
    rndOut := BitVec.ofNat 64 (randomField b g.wordIn)
    msOut := instantOf (timestampField b g.wordIn) } := if_pos h

theorem unpackBody_of_not_valid {b : Build} {g : Regs} (h : ¬ ValidWord b g.wordIn) :
    unpackBody b g = raise .invalidFormat g := if_neg h

/-- The validity check of R84, bit by bit. -/
theorem validWord_iff_bits {b : Build} (hb : b.WellFormed) (w : Word128) :
    ValidWord b w ↔ ∀ j, b.wT + b.wR ≤ j → j < 128 → w.getLsbD j = false :=
  (validWord_iff (widths_le hb) w).trans (toNat_lt_iff_bits w _)

/-- Settles O6: the reserved bits are all 0 exactly when the word is valid, the check on which UNPACK's two ends
turn; in a valid word the fields are the quotient and the remainder by `2^W_R`. -/
theorem unpackIsolatesFieldsOrInvalid : Obligations.UnpackIsolatesFieldsOrInvalid := by
  refine ⟨rfl, fun s hb => ⟨fun hzero => ?_, fun ⟨j, hj, hj128, hone⟩ => ?_⟩⟩
  · have hvalid := (validWord_iff_bits hb s.regs.wordIn).2 hzero
    rw [exec_of_wellFormed .unpack hb, bodyOf_unpack, unpackBody_of_valid hvalid, timestampField_eq_div hb hvalid,
      randomField_eq (one_le_wR hb)]
    rfl
  · have hinvalid : ¬ ValidWord s.build s.regs.wordIn := fun hvalid => by
      simp [getLsbD_of_validWord hb hvalid hj] at hone
    rw [exec_of_wellFormed .unpack hb, bodyOf_unpack, unpackBody_of_not_valid hinvalid]
    rfl

/-! The two fields fit the 64-bit result groups (R6, R28, R29). -/

theorem timestampField_lt {b : Build} (hb : b.WellFormed) (w : Word128) : timestampField b w < 2 ^ b.wT := by
  rw [timestampField_eq (one_le_wR hb)]
  exact Nat.mod_lt _ (by positivity)

theorem randomField_lt {b : Build} (hb : b.WellFormed) (w : Word128) : randomField b w < 2 ^ b.wR := by
  rw [randomField_eq (one_le_wR hb)]
  exact Nat.mod_lt _ (by positivity)

theorem two_pow_wT_le {b : Build} (hb : b.WellFormed) : 2 ^ b.wT ≤ 2 ^ 62 :=
  Nat.pow_le_pow_right (by decide) (by omega)

theorem two_pow_wR_le {b : Build} (hb : b.WellFormed) : 2 ^ b.wR ≤ 2 ^ 64 :=
  Nat.pow_le_pow_right (by decide) (by omega)

theorem toNat_ofNat_timestamp {b : Build} (hb : b.WellFormed) {ts : Nat} (h : ts < 2 ^ b.wT) :
    (BitVec.ofNat 64 ts).toNat = ts :=
  Nat.mod_eq_of_lt ((h.trans_le (two_pow_wT_le hb)).trans (by decide))

theorem toNat_ofNat_random {b : Build} (hb : b.WellFormed) {r : Nat} (h : r < 2 ^ b.wR) :
    (BitVec.ofNat 64 r).toNat = r :=
  Nat.mod_eq_of_lt (h.trans_le (two_pow_wR_le hb))

/-- Settles O24: the timestamp field is below `2^62`, so the sum with EPOCH_MS, a positive number below `2^41`, does
not reach the sign bit. -/
theorem unpackInstantFits : Obligations.UnpackInstantFits := by
  intro s t hexec hcode
  obtain ⟨hb, rfl⟩ := exec_next hexec
  obtain ⟨-, e⟩ := unpackBody_of_code_zero hcode
  have hts := timestampField_lt hb s.regs.wordIn
  have hmax := two_pow_wT_le hb
  simp only [bodyOf_unpack, e, complete_msOut, complete_tsOut, toNat_ofNat_timestamp hb hts,
    instantOf_toInt (hts.trans_le hmax), epochMs_cast, true_and]
  omega

/-- UNPACK of a packed word isolates what was packed (R83, R86). -/
theorem unpackBody_of_packWord {b : Build} (hb : b.WellFormed) {d : Nat} (hd : d < 2 ^ b.wT) {r : Word64} {g : Regs}
    (hw : g.wordIn = packWord b d r) : unpackBody b g = complete { g with
      tsOut := BitVec.ofNat 64 d
      rndOut := BitVec.ofNat 64 (r.toNat % 2 ^ b.wR)
      msOut := instantOf d } := by
  obtain ⟨hvalid, hts, hrnd⟩ := packWord_fields hb hd r
  rw [← hw] at hvalid hts hrnd
  rw [unpackBody_of_valid hvalid, hts, hrnd]

/-- The instant of a timestamp value is that value plus EPOCH_MS (R85). -/
theorem instantOf_toNat {d : Int} (h : 0 ≤ d) : instantOf d.toNat = BitVec.ofInt 64 (1577836800000 + d) := by
  rw [instantOf, Int.toNat_of_nonneg h, epochMs_cast]

/-- After a pack step that reports OK, UNPACK of the word it wrote gives the step's timestamp value back, the instant
of that value, and the masked random bits. -/
theorem exec_unpack_of_packField {s : State} (hb : s.build.WellFormed) {d : Int}
    (h : (packField d s.build s.regs).code = 0) :
    ∃ u, exec .unpack { s with regs := { packField d s.build s.regs with
        wordIn := (packField d s.build s.regs).wordOut } } = .next u ∧
      u.regs.code = 0 ∧ u.regs.msOut = BitVec.ofInt 64 (1577836800000 + d) ∧ (u.regs.tsOut.toNat : Int) = d ∧
      u.regs.rndOut.toNat = s.regs.rndIn.toNat % 2 ^ s.build.wR := by
  obtain ⟨hrep, e⟩ := packField_of_code_zero h
  have hd := toNat_lt_of_representable hrep
  have hword : (packField d s.build s.regs).wordOut = packWord s.build d.toNat s.regs.rndIn := by
    rw [e, complete_wordOut]
  refine ⟨_, exec_of_wellFormed .unpack hb, ?_⟩
  rw [bodyOf_unpack, unpackBody_of_packWord hb hd hword]
  refine ⟨rfl, instantOf_toNat hrep.1, ?_, toNat_ofNat_random hb (Nat.mod_lt _ (by positivity))⟩
  rw [complete_tsOut, toNat_ofNat_timestamp hb hd, Int.toNat_of_nonneg hrep.1]

/-- Settles O23: PACK and PACKF are the pack step on the difference and on TS_IN; UNPACK of the word it wrote gives
that value and the masked random bits, and adding EPOCH_MS undoes the subtraction. -/
theorem unpackInvertsPacking : Obligations.UnpackInvertsPacking := by
  constructor
  · intro s t hexec hcode
    obtain ⟨hb, rfl⟩ := exec_next hexec
    obtain ⟨u, hu, hok, hms, hts, hrnd⟩ := exec_unpack_of_packField hb hcode
    exact ⟨u, hu, hok, hms.trans (by rw [epochMs_cast, add_sub_cancel, BitVec.ofInt_toInt]), hts, hrnd⟩
  · intro s t hexec hcode
    obtain ⟨hb, rfl⟩ := exec_next hexec
    obtain ⟨u, hu, hok, -, hts, -⟩ := exec_unpack_of_packField hb hcode
    exact ⟨u, hu, hok, BitVec.eq_of_toNat_eq (Int.ofNat_inj.mp hts)⟩

/-- Packing the two fields of a valid word gives the word back (R88). -/
theorem packWord_of_fields {b : Build} (hb : b.WellFormed) {w : Word128} (hw : ValidWord b w) :
    packWord b (timestampField b w) (BitVec.ofNat 64 (randomField b w)) = w := by
  apply BitVec.eq_of_toNat_eq
  have hrnd := randomField_lt hb w
  rw [packWord_toNat (widths_le hb) (timestampField_lt hb w), toNat_ofNat_random hb hrnd, Nat.mod_eq_of_lt hrnd,
    Nat.mul_comm, ← toNat_eq_fields hb hw]

/-- Fields in range that pack to a word are that word's fields (R88). -/
theorem fields_of_packWord_eq {b : Build} (hb : b.WellFormed) {ts : Nat} {r : Word64} {w : Word128}
    (hts : ts < 2 ^ b.wT) (hr : r.toNat < 2 ^ b.wR) (hw : packWord b ts r = w) :
    ts = timestampField b w ∧ r.toNat = randomField b w := by
  obtain ⟨-, hfield, hrnd⟩ := packWord_fields hb hts r
  rw [← hw, hfield, hrnd, Nat.mod_eq_of_lt hr]
  exact ⟨rfl, rfl⟩

/-- Settles O25: UNPACK's two results are the fields of a valid word; the timestamp field is in PACKF's range, so the
repack writes the word of these fields, and a word's fields are the only ones that pack to it. -/
theorem repackGivesTheWordBack : Obligations.RepackGivesTheWordBack := by
  intro s t hexec hcode
  obtain ⟨hb, rfl⟩ := exec_next hexec
  obtain ⟨hvalid, e⟩ := unpackBody_of_code_zero hcode
  have hts := timestampField_lt hb s.regs.wordIn
  have hrnd := randomField_lt hb s.regs.wordIn
  refine ⟨_, exec_of_wellFormed .packf hb, ?_⟩
  simp only [bodyOf_unpack, bodyOf_packf, e, complete_tsOut, complete_rndOut, toNat_ofNat_timestamp hb hts,
    packField_of_representable ((representable_natCast _ _).2 hts), Int.toNat_natCast]
  refine ⟨rfl, packWord_of_fields hb hvalid, fun ts r hlt hr hpack => ?_⟩
  obtain ⟨hts', hr'⟩ := fields_of_packWord_eq hb hlt hr hpack
  exact ⟨hts', BitVec.eq_of_toNat_eq (hr'.trans (toNat_ofNat_random hb hrnd).symm)⟩

end Sys2Proof.Machine

/-! ### The binary form (43_binary_form.md) -/

namespace Sys2Proof.Machine

theorem bodyOf_tobytes (b : Build) (g : Regs) : bodyOf .tobytes b g = tobytesBody b g := rfl

theorem bodyOf_frombytes (b : Build) (g : Regs) : bodyOf .frombytes b g = frombytesBody b g := rfl

theorem tobytesBody_bytesOut (b : Build) (g : Regs) : (tobytesBody b g).bytesOut = bytesGroup (be16 g.wordIn) := rfl

theorem frombytesBody_of_valid {b : Build} {g : Regs} (h : ValidWord b (rebuiltWord g)) :
    frombytesBody b g = complete { g with wordOut := rebuiltWord g } := if_pos h

/-- FROMBYTES with both ends written out, on the rebuilt number (R84, R90). -/
theorem frombytesBody_eq {b : Build} (hb : b.WellFormed) (g : Regs) :
    frombytesBody b g = if (rebuiltWord g).toNat < 2 ^ (b.wT + b.wR) then
        { g with wordOut := rebuiltWord g, code := 0 }
      else { g with code := 1 } := by
  obtain ⟨h, e⟩ | ⟨h, e⟩ := frombytesBody_cases b g
  · rw [e, if_pos ((validWord_iff (widths_le hb) _).1 h)]
    rfl
  · rw [e, if_neg (mt (validWord_iff (widths_le hb) _).2 h)]
    rfl

/-- Settles O7: TOBYTES completes on any word, and byte `k` of the group it writes is byte `k` of `be16`. -/
theorem tobytesWritesBigEndianBytes : Obligations.TobytesWritesBigEndianBytes := by
  refine ⟨rfl, fun s hb => ⟨bytesGroup (be16 s.regs.wordIn), exec_of_wellFormed .tobytes hb, fun k hk => ?_⟩⟩
  exact byteLane_bytesGroup (be16 s.regs.wordIn) hk

/-- Settles O8: the sum of the bytes is the number of the rebuilt word, and it is valid exactly when it is below
`2^(W_T+W_R)`. -/
theorem frombytesWritesWordOrInvalid : Obligations.FrombytesWritesWordOrInvalid := by
  refine ⟨rfl, fun s hb => ?_⟩
  intro w
  have hw : (rebuiltWord s.regs).toNat = w := wordOfBe16_toNat (byteLane s.regs.bytesIn)
  rw [exec_of_wellFormed .frombytes hb, bodyOf_frombytes, frombytesBody_eq hb, ← hw, BitVec.ofNat_toNat,
    BitVec.setWidth_eq]

/-- FROMBYTES on the group TOBYTES wrote rebuilds WORD_IN (R91). -/
theorem rebuiltWord_of_tobytes (b : Build) (g : Regs) :
    rebuiltWord { tobytesBody b g with bytesIn := (tobytesBody b g).bytesOut } = g.wordIn :=
  wordOfBe16_bytesGroup g.wordIn

/-- Settles O26: the byte order is undone both ways; the valid word passes FROMBYTES's check, and TOBYTES checks
nothing. -/
theorem binaryFormRoundTrips : Obligations.BinaryFormRoundTrips := by
  constructor
  · intro s t hvalid hexec
    obtain ⟨hb, rfl⟩ := exec_next hexec
    refine ⟨_, exec_of_wellFormed .frombytes hb, ?_⟩
    have hword := rebuiltWord_of_tobytes s.build s.regs
    rw [← hword] at hvalid
    rw [bodyOf_tobytes, bodyOf_frombytes, frombytesBody_of_valid hvalid]
    exact ⟨hword, rfl⟩
  · intro s t hexec hcode
    obtain ⟨hb, rfl⟩ := exec_next hexec
    obtain ⟨-, e⟩ := frombytesBody_of_code_zero hcode
    refine ⟨_, exec_of_wellFormed .tobytes hb, ?_⟩
    rw [bodyOf_frombytes, bodyOf_tobytes, tobytesBody_bytesOut, e]
    exact bytesGroup_wordOfBe16 s.regs.bytesIn

/-! The registers of the four 128-bit groups at their offsets (R14, R15). -/

theorem memRead_wordIn (s : State) {j : Nat} (hj : j < 4) : memRead s (0x20 + 4 * j) = groupReg s.regs.wordIn j :=
  memRead_regOffset s (.wordIn ⟨j, hj⟩)

theorem memRead_bytesIn (s : State) {j : Nat} (hj : j < 4) : memRead s (0x50 + 4 * j) = groupReg s.regs.bytesIn j :=
  memRead_regOffset s (.bytesIn ⟨j, hj⟩)

theorem memRead_wordOut (s : State) {j : Nat} (hj : j < 4) : memRead s (0x60 + 4 * j) = groupReg s.regs.wordOut j :=
  memRead_regOffset s (.wordOut ⟨j, hj⟩)

theorem memRead_bytesOut (s : State) {j : Nat} (hj : j < 4) : memRead s (0x90 + 4 * j) = groupReg s.regs.bytesOut j :=
  memRead_regOffset s (.bytesOut ⟨j, hj⟩)

/-- Reversing the sixteen bytes reverses the four registers and swaps the bytes of each (R92). -/
theorem groupReg_bytesGroup_be16 (w : Word128) {j : Nat} (hj : j < 4) :
    groupReg (bytesGroup (be16 w)) j = bswap32 (groupReg w (3 - j)) := by
  refine eq_of_byteLane_eq_word32 fun k hk => ?_
  rw [byteLane_groupReg _ _ hk, byteLane_bytesGroup_be16 w (by omega), byteLane_bswap32 _ hk,
    byteLane_groupReg _ _ (by omega), show 15 - (4 * j + k) = 4 * (3 - j) + (3 - k) by omega]

/-- Rebuilding a word is the same reversal of the sixteen bytes as its binary form (R89, R90). -/
theorem rebuiltWord_eq_bytesGroup (g : Regs) : rebuiltWord g = bytesGroup (be16 g.bytesIn) := by
  refine eq_of_byteLane_eq fun k hk => ?_
  rw [rebuiltWord, byteLane_wordOfBe16 _ hk, byteLane_bytesGroup_be16 _ hk]

/-- Settles O27: both commands write the sixteen bytes of their operand reversed, which reverses the registers and
swaps the bytes of each. -/
theorem bytesRegistersAreSwappedWordRegisters : Obligations.BytesRegistersAreSwappedWordRegisters := by
  constructor
  · intro s t hexec j hj
    obtain ⟨-, rfl⟩ := exec_next hexec
    rw [memRead_bytesOut _ hj, memRead_wordIn s (by omega), bodyOf_tobytes, tobytesBody_bytesOut,
      groupReg_bytesGroup_be16 _ hj]
  · intro s t hexec hcode j hj
    obtain ⟨-, rfl⟩ := exec_next hexec
    obtain ⟨-, e⟩ := frombytesBody_of_code_zero hcode
    rw [memRead_wordOut _ hj, memRead_bytesIn s (by omega), bodyOf_frombytes, e, complete_wordOut,
      rebuiltWord_eq_bytesGroup, groupReg_bytesGroup_be16 _ hj]

end Sys2Proof.Machine

/-! ### The commands right after reset (70_reset_and_hazards.md) -/

namespace Sys2Proof.Machine

/-! The operand forms of zero: the word 0 is valid, both its fields are 0, and so are its bytes (R3, R84, R89). -/

theorem slice_zero (n hi lo : Nat) : slice (0 : BitVec n) hi lo = 0 := by simp [slice]

theorem validWord_zero (b : Build) : ValidWord b 0 := slice_zero ..

theorem timestampField_zero (b : Build) : timestampField b 0 = 0 := slice_zero ..

theorem randomField_zero (b : Build) : randomField b 0 = 0 := slice_zero ..

theorem packWord_zero (b : Build) : packWord b 0 0 = 0 := by simp [packWord]

theorem bytesGroup_be16_zero : bytesGroup (be16 0) = 0 := by decide

theorem reset_wordIn : Regs.reset.wordIn = 0 := rfl

theorem reset_rndIn : Regs.reset.rndIn = 0 := rfl

theorem rebuiltWord_reset : rebuiltWord Regs.reset = 0 := by decide

/-- The instant of timestamp field 0 is the custom epoch (R7). -/
theorem instantOf_zero : instantOf 0 = 0x0000016F5E66E800 := by decide

/-! Each command's body on the reset registers (R113). -/

theorem bodyOf_pack_reset (b : Build) : bodyOf .pack b Regs.reset = { Regs.reset with code := 2 } := by
  have hbefore : ¬ Representable b (-1577836800000) := fun h => absurd h.1 (by decide)
  exact packField_of_not_representable hbefore Regs.reset

theorem bodyOf_packf_reset (b : Build) : bodyOf .packf b Regs.reset = Regs.reset := by
  have hzero : Representable b (0 : Nat) := (representable_natCast b 0).2 (by positivity)
  rw [bodyOf_packf]
  refine (packField_of_representable hzero Regs.reset).trans ?_
  rw [Int.toNat_natCast, reset_rndIn, packWord_zero]
  rfl

theorem bodyOf_unpack_reset (b : Build) :
    bodyOf .unpack b Regs.reset = { Regs.reset with msOut := 0x0000016F5E66E800 } := by
  rw [bodyOf_unpack, unpackBody_of_valid (validWord_zero b), reset_wordIn, timestampField_zero, randomField_zero,
    instantOf_zero]
  rfl

theorem bodyOf_tobytes_reset (b : Build) : bodyOf .tobytes b Regs.reset = Regs.reset := by
  rw [bodyOf_tobytes, tobytesBody, reset_wordIn, bytesGroup_be16_zero]
  rfl

theorem bodyOf_frombytes_reset (b : Build) : bodyOf .frombytes b Regs.reset = Regs.reset := by
  have hvalid : ValidWord b (rebuiltWord Regs.reset) := rebuiltWord_reset ▸ validWord_zero b
  rw [bodyOf_frombytes, frombytesBody_of_valid hvalid, rebuiltWord_reset]
  rfl

theorem exec_resetOf {b : Build} (hb : b.WellFormed) (i : Instr) :
    exec i (State.resetOf b) = .next { State.resetOf b with regs := bodyOf i b Regs.reset } :=
  exec_of_wellFormed (s := State.resetOf b) i hb

/-- Settles O50: MS_IN 0 lies before the custom epoch, so PACK is out of range; the other operands are the valid word
0 and the timestamp 0, whose results are 0 but for MS_OUT, the epoch itself. -/
theorem commandsRightAfterReset : Obligations.CommandsRightAfterReset := by
  intro b hb
  simp only [exec_resetOf hb]
  rw [bodyOf_pack_reset, bodyOf_packf_reset, bodyOf_unpack_reset, bodyOf_tobytes_reset, bodyOf_frombytes_reset]
  exact ⟨rfl, rfl, rfl, rfl, rfl⟩

end Sys2Proof.Machine

/-! ### The invariant of every step (10_state.md, 70_reset_and_hazards.md) -/

namespace Sys2Proof.Machine

/-! Each way a command can end keeps the results consistent. -/

theorem codeBits_le (c : Code) : (codeBits c).toNat ≤ 3 := by cases c <;> decide

theorem resultsConsistent_raise {b : Build} {g : Regs} (c : Code) (h : ResultsConsistent b g) :
    ResultsConsistent b (raise c g) := by
  obtain ⟨-, hresults⟩ := h
  exact ⟨codeBits_le c, hresults⟩

theorem resultsConsistent_wordOut {b : Build} {g : Regs} {w : Word128} (h : ResultsConsistent b g)
    (hw : w.toNat < 2 ^ (b.wT + b.wR)) : ResultsConsistent b (complete { g with wordOut := w }) := by
  obtain ⟨-, -, hunpacked⟩ := h
  exact ⟨codeBits_le .ok, hw, hunpacked⟩

theorem resultsConsistent_bytesOut {b : Build} {g : Regs} (x : Word128) (h : ResultsConsistent b g) :
    ResultsConsistent b (complete { g with bytesOut := x }) := by
  obtain ⟨-, hresults⟩ := h
  exact ⟨codeBits_le .ok, hresults⟩

/-- The three results of UNPACK belong together: the fields fit their widths, and the instant is that of the
timestamp field (R87). -/
theorem resultsConsistent_unpacked {b : Build} (hb : b.WellFormed) {g : Regs} (h : ResultsConsistent b g)
    {ts r : Nat} (hts : ts < 2 ^ b.wT) (hr : r < 2 ^ b.wR) : ResultsConsistent b (complete { g with
      tsOut := BitVec.ofNat 64 ts, rndOut := BitVec.ofNat 64 r, msOut := instantOf ts }) := by
  obtain ⟨-, hword, -⟩ := h
  have hts64 := toNat_ofNat_timestamp hb hts
  have hr64 := toNat_ofNat_random hb hr
  refine ⟨codeBits_le .ok, hword, hts64.trans_lt hts, hr64.trans_lt hr, .inl ?_⟩
  rw [complete_msOut, complete_tsOut, hts64, instantOf_toInt (hts.trans_le (two_pow_wT_le hb))]

theorem packField_keeps_resultsConsistent {b : Build} (hb : b.WellFormed) (d : Int) {g : Regs}
    (h : ResultsConsistent b g) : ResultsConsistent b (packField d b g) := by
  obtain ⟨hrep, e⟩ | ⟨-, e⟩ := packField_cases d b g
  · exact e ▸ resultsConsistent_wordOut h (packWord_lt (widths_le hb) (toNat_lt_of_representable hrep) _)
  · exact e ▸ resultsConsistent_raise .outOfRange h

/-- Every instruction keeps the results consistent, whatever its operands. -/
theorem bodyOf_keeps_resultsConsistent (i : Instr) {b : Build} (hb : b.WellFormed) {g : Regs}
    (h : ResultsConsistent b g) : ResultsConsistent b (bodyOf i b g) := by
  cases i with
  | pack => exact packField_keeps_resultsConsistent hb _ h
  | packf => exact packField_keeps_resultsConsistent hb _ h
  | unpack =>
    rw [bodyOf_unpack]
    obtain ⟨-, e⟩ | ⟨-, e⟩ := unpackBody_cases b g
    · exact e ▸ resultsConsistent_unpacked hb h (timestampField_lt hb _) (randomField_lt hb _)
    · exact e ▸ resultsConsistent_raise .invalidFormat h
  | tobytes => exact resultsConsistent_bytesOut _ h
  | frombytes =>
    rw [bodyOf_frombytes]
    obtain ⟨hvalid, e⟩ | ⟨-, e⟩ := frombytesBody_cases b g
    · exact e ▸ resultsConsistent_wordOut h ((validWord_iff (widths_le hb) _).1 hvalid)
    · exact e ▸ resultsConsistent_raise .invalidFormat h

theorem bodyOfWord_keeps_resultsConsistent (c : Word32) {b : Build} (hb : b.WellFormed) {g : Regs}
    (h : ResultsConsistent b g) : ResultsConsistent b (bodyOfWord c b g) := by
  cases hc : decode c with
  | ok i => exact bodyOfWord_ok hc ▸ bodyOf_keeps_resultsConsistent i hb h
  | error r => exact bodyOfWord_error hc b g ▸ resultsConsistent_raise .unsupported h

theorem resultsConsistent_reset (b : Build) : ResultsConsistent b Regs.reset :=
  ⟨by decide, Nat.two_pow_pos _, Nat.two_pow_pos _, Nat.two_pow_pos _, .inr ⟨rfl, rfl, rfl⟩⟩

/-- An update that leaves the condition, the build and the results as they were keeps the invariant. -/
theorem inv_of_same_results {s t : State} (hinv : Inv s) (hphase : t.phase = s.phase) (hbuild : t.build = s.build)
    (hresults : ResultsConsistent s.build s.regs → ResultsConsistent s.build t.regs) : Inv t := by
  intro hrun
  rw [hbuild]
  exact hresults (hinv (hphase ▸ hrun))

/-- The release of reset gives the reset values or changes nothing. -/
theorem inv_releaseReset {s : State} (hinv : Inv s) : Inv (releaseReset s) := by
  by_cases hreset : s.phase = .inReset
  · rw [releaseReset_of_inReset hreset]
    exact fun _ => resultsConsistent_reset s.build
  · rwa [releaseReset_of_not_inReset hreset]

/-- Every input keeps the invariant: only a command word writes results of a running block, and a block that leaves
the running condition is asked for nothing. -/
theorem Effect.inv {e : Event} {s t : State} (hb : s.build.WellFormed) (hinv : Inv s) (h : Effect e s t) : Inv t := by
  cases h with
  | read => exact hinv
  | ignored => exact hinv
  | write off r v =>
    exact inv_of_same_results hinv rfl rfl fun hg => by
      simpa only [respond_regs, writeReg_wordOut, writeReg_msOut, writeReg_tsOut, writeReg_rndOut, writeReg_code,
        ResultsConsistent] using hg
  | command c => exact inv_of_same_results hinv rfl rfl (bodyOfWord_keeps_resultsConsistent c hb)
  | unanswered a x =>
    exact inv_of_same_results hinv (respondOpen_phase ..) (respondOpen_build ..) fun hg => by rwa [respondOpen_regs]
  | assertReset => exact fun hrun => absurd hrun (by simp)
  | releaseReset => exact inv_releaseReset hinv
  | powerCycle => exact fun hrun => absurd hrun (phaseAfterPower_ne_running _)

/-- Settles O44: every register is 0 after reset. -/
theorem resetResultsAreConsistent : Obligations.ResetResultsAreConsistent :=
  fun b _ => resultsConsistent_reset b

/-- Settles O43: a step takes one input or changes nothing, and every input keeps the invariant. -/
theorem everyStepKeepsResultsConsistent : Obligations.EveryStepKeepsResultsConsistent := by
  intro s t hinv hstep
  obtain ⟨hb, ⟨-, rfl⟩ | ⟨e, rest, -, heff⟩⟩ := step_next hstep
  · exact hinv
  · exact Effect.inv (s := { s with pending := rest }) hb hinv heff

end Sys2Proof.Machine

/-! ### The reserved command words (30_encoding.md, 60_exceptions.md) -/

namespace Sys2Proof

theorem opField_toNat (c : Word32) : (opField c).toNat = c.toNat % 16 := by
  rw [opField, BitVec.extractLsb'_toNat, Nat.shiftRight_zero]

/-- RSVD is nonzero when one of the bits 31:4 is 1 (R61). -/
theorem rsvdField_ne_zero_iff (c : Word32) :
    rsvdField c ≠ 0#28 ↔ ∃ j, 4 ≤ j ∧ j < 32 ∧ c.getLsbD j = true := by
  rw [ne_eq, BitVec.zero_iff_eq_false, not_forall]
  constructor
  · rintro ⟨j, hj⟩
    simp only [rsvdField, BitVec.getLsbD_extractLsb', Bool.not_eq_false, Bool.and_eq_true, decide_eq_true_eq] at hj
    exact ⟨4 + j, by omega, by omega, hj.2⟩
  · rintro ⟨j, h4, h32, hj⟩
    refine ⟨j - 4, ?_⟩
    simp [rsvdField, show j - 4 < 28 by omega, show 4 + (j - 4) = j by omega, hj]

/-- The OP values R63 gives no operation. -/
theorem opOf_eq_none_iff (op : BitVec 4) : opOf op = none ↔ op.toNat = 0 ∨ 6 ≤ op.toNat := by
  revert op
  decide

/-- The decoder refuses a word at one of its two tests. -/
theorem decode_eq_error_iff (c : Word32) :
    (∃ r, decode c = .error r) ↔ rsvdField c ≠ 0#28 ∨ opOf (opField c) = none := by
  by_cases hrsvd : rsvdField c = 0#28
  · cases hop : opOf (opField c) <;> simp [decode, hrsvd, hop]
  · simp [decode, hrsvd]

/-- Settles O2: the first test is on the bits 31:4, the second on the low four bits. -/
theorem reservedWordsAreExactlyTheRest : Obligations.ReservedWordsAreExactlyTheRest := by
  intro c
  rw [decode_eq_error_iff, rsvdField_ne_zero_iff, opOf_eq_none_iff, opField_toNat]

end Sys2Proof

namespace Sys2Proof.Machine

/-- A command word written to CMD of a ready block: its body on the registers, then the normal response (R69). -/
theorem step_command {s : State} (h : Ready s) (c : Word32) :
    step (issue (.access ⟨s.build.base + 0x10, 4, .write c⟩) s) =
      .next (respond .done { s with regs := bodyOfWord c s.build s.regs }) := by
  rw [step_write_cmd h, command_eq_runCommand, runCommand_of_wellFormed h.1]
  rfl

/-- Settles O9: the decoder refuses the word, so its body is to raise UNSUPPORTED. -/
theorem reservedWordOnlySetsUnsupported : Obligations.ReservedWordOnlySetsUnsupported := by
  intro s c hs hreserved
  obtain ⟨r, hr⟩ := (reservedWordsAreExactlyTheRest c).2 hreserved
  rw [step_command hs, bodyOfWord_error hr]
  rfl

/-- Settles O17: every command word, reserved or not, has a body, and the step is that body. -/
theorem everyCommandWordCompletes : Obligations.EveryCommandWordCompletes := by
  intro s c hs
  have ⟨_, hrun⟩ := hs
  exact ⟨_, step_command hs c, rfl, rfl, hrun⟩

/-- Settles O10: a decoded word's body is its instruction's. -/
theorem stepRunsTheDecodedInstruction : Obligations.StepRunsTheDecodedInstruction := by
  intro s c i rest hs hc hp
  obtain ⟨hb, hrun⟩ := hs
  have hissue : s = issue (.access ⟨s.build.base + 0x10, 4, .write c⟩) { s with pending := rest } := by
    rw [issue, ← hp]
  have hready : Ready { s with pending := rest } := ⟨hb, hrun⟩
  rw [exec_of_wellFormed i (s := { s with pending := rest }) hb, ← bodyOfWord_ok hc]
  exact (congrArg step hissue).trans (step_command hready c)

/-- Settles O3: each word is short enough to decode by computation. -/
theorem tableWordsDecode : Obligations.TableWordsDecode :=
  ⟨rfl, rfl, rfl, rfl, rfl, rfl, rfl, rfl, rfl, rfl⟩

end Sys2Proof.Machine

/-! ### The common frame of the commands (40_command_common.md) -/

namespace Sys2Proof.Machine

theorem packField_frame (d : Int) (b : Build) (g : Regs) : packField d b g =
    { g with wordOut := (packField d b g).wordOut, code := (packField d b g).code } := by
  obtain ⟨-, e⟩ | ⟨-, e⟩ := packField_cases d b g <;> rw [e] <;> rfl

theorem frombytesBody_frame (b : Build) (g : Regs) : frombytesBody b g =
    { g with wordOut := (frombytesBody b g).wordOut, code := (frombytesBody b g).code } := by
  obtain ⟨-, e⟩ | ⟨-, e⟩ := frombytesBody_cases b g <;> rw [e] <;> rfl

theorem unpackBody_frame (b : Build) (g : Regs) : unpackBody b g =
    { g with msOut := (unpackBody b g).msOut, tsOut := (unpackBody b g).tsOut, rndOut := (unpackBody b g).rndOut,
             code := (unpackBody b g).code } := by
  obtain ⟨-, e⟩ | ⟨-, e⟩ := unpackBody_cases b g <;> rw [e] <;> rfl

/-- PACK, PACKF and FROMBYTES write WORD_OUT and CODE (R73). -/
theorem bodyOf_wordOut_frame {i : Instr} (hi : i = .pack ∨ i = .packf ∨ i = .frombytes) (b : Build) (g : Regs) :
    bodyOf i b g = { g with wordOut := (bodyOf i b g).wordOut, code := (bodyOf i b g).code } := by
  obtain rfl | rfl | rfl := hi
  · exact packField_frame _ b g
  · exact packField_frame _ b g
  · exact frombytesBody_frame b g

/-- No operand register differs (R31). -/
def SameOperands (g g' : Regs) : Prop :=
  g'.wordIn = g.wordIn ∧ g'.msIn = g.msIn ∧ g'.tsIn = g.tsIn ∧ g'.rndIn = g.rndIn ∧ g'.bytesIn = g.bytesIn

/-- A byte of the window reads the same where it stands in no register that differs: over other operands the bytes of
STATUS and of each result group are left to compare (R14). -/
theorem windowByte_set_regs {s : State} {g : Regs} {off : Nat} (hops : SameOperands s.regs g)
    (hstatus : 0x14 ≤ off ∧ off < 0x18 → g.code = s.regs.code)
    (hword : 0x60 ≤ off ∧ off < 0x70 → g.wordOut = s.regs.wordOut)
    (hfields : 0x70 ≤ off ∧ off < 0x88 →
      g.msOut = s.regs.msOut ∧ g.tsOut = s.regs.tsOut ∧ g.rndOut = s.regs.rndOut)
    (hbytes : 0x90 ≤ off ∧ off < 0xA0 → g.bytesOut = s.regs.bytesOut) :
    windowByte { s with regs := g } off = windowByte s off := by
  apply windowByte_eq_of_memRead
  refine memRead_eq_of_readReg ?_ fun r hr => ?_
  · rfl
  obtain ⟨hwordIn, hmsIn, htsIn, hrndIn, hbytesIn⟩ := hops
  have hover : regOffset r ≤ off ∧ off < regOffset r + 4 := by omega
  cases r with simp only [regOffset] at hover
  | cfg => rfl
  | epoch _ => rfl
  | cmd => rfl
  | status => exact congrArg statusWord (hstatus (by omega))
  | wordIn j => exact congrArg (groupReg · j) hwordIn
  | msIn j => exact congrArg (groupReg · j) hmsIn
  | tsIn j => exact congrArg (groupReg · j) htsIn
  | rndIn j => exact congrArg (groupReg · j) hrndIn
  | bytesIn j => exact congrArg (groupReg · j) hbytesIn
  | wordOut j => exact congrArg (groupReg · j) (hword (by omega))
  | msOut j => exact congrArg (groupReg · j) (hfields (by omega)).1
  | tsOut j => exact congrArg (groupReg · j) (hfields (by omega)).2.1
  | rndOut j => exact congrArg (groupReg · j) (hfields (by omega)).2.2
  | bytesOut j => exact congrArg (groupReg · j) (hbytes (by omega))

/-- Settles O11: the body changes WORD_OUT and CODE alone, and only their bytes show it. -/
theorem wordOutCommandsFrame : Obligations.WordOutCommandsFrame := by
  intro i s t hi hexec
  obtain ⟨-, rfl⟩ := exec_next hexec
  have hframe := bodyOf_wordOut_frame hi s.build s.regs
  refine ⟨congrArg (fun g => { s with regs := g }) hframe, fun off hword hstatus => ?_⟩
  exact windowByte_set_regs (bodyOf_operands i _ _) (absurd · hstatus) (absurd · hword)
    (fun _ => ⟨(congrArg Regs.msOut hframe :), (congrArg Regs.tsOut hframe :), (congrArg Regs.rndOut hframe :)⟩)
    (fun _ => (congrArg Regs.bytesOut hframe :))

/-- Settles O12: the body changes the three UNPACK results and CODE alone, and only their bytes show it. -/
theorem unpackFrame : Obligations.UnpackFrame := by
  intro s t hexec
  obtain ⟨-, rfl⟩ := exec_next hexec
  have hframe := unpackBody_frame s.build s.regs
  refine ⟨congrArg (fun g => { s with regs := g }) hframe, fun off hfields hstatus => ?_⟩
  exact windowByte_set_regs (bodyOf_operands .unpack _ _) (absurd · hstatus)
    (fun _ => (congrArg Regs.wordOut hframe :)) (absurd · hfields) (fun _ => (congrArg Regs.bytesOut hframe :))

/-- Settles O13: the body changes BYTES_OUT and CODE alone, and only their bytes show it. -/
theorem tobytesFrame : Obligations.TobytesFrame := by
  intro s t hexec
  obtain ⟨-, rfl⟩ := exec_next hexec
  refine ⟨rfl, fun off hbytes hstatus => ?_⟩
  exact windowByte_set_regs (bodyOf_operands .tobytes _ _) (absurd · hstatus) (fun _ => rfl)
    (fun _ => ⟨rfl, rfl, rfl⟩) (absurd · hbytes)

/-- The two ends of an instruction (R71): it completes with CODE 0, or it raises an error that its rule names and
does nothing else (R73). -/
theorem bodyOf_ends (i : Instr) (b : Build) (g : Regs) : (bodyOf i b g).code = 0 ∨
    ((i = .pack ∨ i = .packf) ∧ bodyOf i b g = raise .outOfRange g) ∨
    ((i = .unpack ∨ i = .frombytes) ∧ bodyOf i b g = raise .invalidFormat g) := by
  have hpack (d : Int) : (packField d b g).code = 0 ∨ packField d b g = raise .outOfRange g := by
    obtain ⟨-, e⟩ | ⟨-, e⟩ := packField_cases d b g
    · exact .inl (by rw [e, complete_code])
    · exact .inr e
  cases i with
  | pack => exact (hpack _).imp_right fun e => .inl ⟨.inl rfl, e⟩
  | packf => exact (hpack _).imp_right fun e => .inl ⟨.inr rfl, e⟩
  | unpack =>
    obtain ⟨-, e⟩ | ⟨-, e⟩ := unpackBody_cases b g
    · exact .inl (by rw [bodyOf_unpack, e, complete_code])
    · exact .inr (.inr ⟨.inl rfl, e⟩)
  | tobytes => exact .inl rfl
  | frombytes =>
    obtain ⟨-, e⟩ | ⟨-, e⟩ := frombytesBody_cases b g
    · exact .inl (by rw [bodyOf_frombytes, e, complete_code])
    · exact .inr (.inr ⟨.inr rfl, e⟩)

/-- Settles O14: a CODE other than 0 leaves only the ends that raise, and `raise` writes CODE alone. -/
theorem failedCommandWritesOnlyCode : Obligations.FailedCommandWritesOnlyCode := by
  intro i s t hexec hcode
  obtain ⟨-, rfl⟩ := exec_next hexec
  obtain hok | ⟨-, e⟩ | ⟨-, e⟩ := bodyOf_ends i s.build s.regs
  · exact absurd hok hcode
  · rw [e]; rfl
  · rw [e]; rfl

/-- Settles O15: each end of each instruction reports one code. -/
theorem codesEachCommandReports : Obligations.CodesEachCommandReports := by
  intro i s t hexec
  obtain ⟨-, rfl⟩ := exec_next hexec
  obtain hok | ⟨rfl | rfl, e⟩ | ⟨rfl | rfl, e⟩ := bodyOf_ends i s.build s.regs
  · cases i with
    | tobytes => exact hok
    | _ => exact .inl hok
  all_goals exact .inr (by rw [e]; rfl)

/-- Two runs of a command, from `g` to `t` and from `g'` to `t'`, agree: they report one code, and each result group
is the same after both or written by neither (R70, R74). -/
def RunsAgree (g g' t t' : Regs) : Prop :=
  t'.code = t.code ∧
  (t'.wordOut = t.wordOut ∨ t.wordOut = g.wordOut ∧ t'.wordOut = g'.wordOut) ∧
  (t'.msOut = t.msOut ∧ t'.tsOut = t.tsOut ∧ t'.rndOut = t.rndOut ∨
    (t.msOut = g.msOut ∧ t.tsOut = g.tsOut ∧ t.rndOut = g.rndOut) ∧
    t'.msOut = g'.msOut ∧ t'.tsOut = g'.tsOut ∧ t'.rndOut = g'.rndOut) ∧
  (t'.bytesOut = t.bytesOut ∨ t.bytesOut = g.bytesOut ∧ t'.bytesOut = g'.bytesOut)

theorem runsAgree_raise (c : Code) (g g' : Regs) : RunsAgree g g' (raise c g) (raise c g') :=
  ⟨rfl, .inr ⟨rfl, rfl⟩, .inr ⟨⟨rfl, rfl, rfl⟩, rfl, rfl, rfl⟩, .inr ⟨rfl, rfl⟩⟩

theorem runsAgree_wordOut (w : Word128) (g g' : Regs) :
    RunsAgree g g' (complete { g with wordOut := w }) (complete { g' with wordOut := w }) :=
  ⟨rfl, .inl rfl, .inr ⟨⟨rfl, rfl, rfl⟩, rfl, rfl, rfl⟩, .inr ⟨rfl, rfl⟩⟩

theorem runsAgree_unpacked (ts rnd ms : Word64) (g g' : Regs) :
    RunsAgree g g' (complete { g with tsOut := ts, rndOut := rnd, msOut := ms })
      (complete { g' with tsOut := ts, rndOut := rnd, msOut := ms }) :=
  ⟨rfl, .inr ⟨rfl, rfl⟩, .inl ⟨rfl, rfl, rfl⟩, .inr ⟨rfl, rfl⟩⟩

theorem runsAgree_bytesOut (x : Word128) (g g' : Regs) :
    RunsAgree g g' (complete { g with bytesOut := x }) (complete { g' with bytesOut := x }) :=
  ⟨rfl, .inr ⟨rfl, rfl⟩, .inr ⟨⟨rfl, rfl, rfl⟩, rfl, rfl, rfl⟩, .inl rfl⟩

theorem runsAgree_packField (d : Int) (b : Build) {g g' : Regs} (hrnd : g'.rndIn = g.rndIn) :
    RunsAgree g g' (packField d b g) (packField d b g') := by
  by_cases h : Representable b d
  · rw [packField_of_representable h, packField_of_representable h, hrnd]
    exact runsAgree_wordOut _ g g'
  · rw [packField_of_not_representable h, packField_of_not_representable h]
    exact runsAgree_raise .outOfRange g g'

theorem runsAgree_unpackBody (b : Build) {g g' : Regs} (hword : g'.wordIn = g.wordIn) :
    RunsAgree g g' (unpackBody b g) (unpackBody b g') := by
  by_cases h : ValidWord b g.wordIn
  · rw [unpackBody_of_valid h, unpackBody_of_valid (hword ▸ h), hword]
    exact runsAgree_unpacked _ _ _ g g'
  · rw [unpackBody_of_not_valid h, unpackBody_of_not_valid (hword ▸ h)]
    exact runsAgree_raise .invalidFormat g g'

theorem runsAgree_tobytesBody (b : Build) {g g' : Regs} (hword : g'.wordIn = g.wordIn) :
    RunsAgree g g' (tobytesBody b g) (tobytesBody b g') := by
  rw [tobytesBody, tobytesBody, hword]
  exact runsAgree_bytesOut _ g g'

theorem frombytesBody_of_not_valid {b : Build} {g : Regs} (h : ¬ ValidWord b (rebuiltWord g)) :
    frombytesBody b g = raise .invalidFormat g := if_neg h

theorem runsAgree_frombytesBody (b : Build) {g g' : Regs} (hbytes : g'.bytesIn = g.bytesIn) :
    RunsAgree g g' (frombytesBody b g) (frombytesBody b g') := by
  have hword : rebuiltWord g' = rebuiltWord g := congrArg (fun x => wordOfBe16 (byteLane x)) hbytes
  by_cases h : ValidWord b (rebuiltWord g)
  · rw [frombytesBody_of_valid h, frombytesBody_of_valid (hword ▸ h), hword]
    exact runsAgree_wordOut _ g g'
  · rw [frombytesBody_of_not_valid h, frombytesBody_of_not_valid (hword ▸ h)]
    exact runsAgree_raise .invalidFormat g g'

/-- Settles O16: both blocks run the same body, whose end and whose values depend on the operands alone. -/
theorem commandDependsOnOperandsOnly : Obligations.CommandDependsOnOperandsOnly := by
  intro i s s' hb hbuild hword hms hts hrnd hbytes
  refine ⟨_, _, exec_of_wellFormed i hb, exec_of_wellFormed i (hbuild ▸ hb), ?_⟩
  rw [hbuild]
  change RunsAgree s.regs s'.regs (bodyOf i s.build s.regs) (bodyOf i s.build s'.regs)
  cases i with
  | pack =>
    rw [bodyOf_pack, bodyOf_pack, hms]
    exact runsAgree_packField _ s.build hrnd
  | packf =>
    rw [bodyOf_packf, bodyOf_packf, hts]
    exact runsAgree_packField _ s.build hrnd
  | unpack => exact runsAgree_unpackBody s.build hword
  | tobytes => exact runsAgree_tobytesBody s.build hword
  | frombytes => exact runsAgree_frombytesBody s.build hbytes

/-- Settles O18: the fields are the quotient and the remainder by `2^W_R`. -/
theorem validWordIsItsTwoFields : Obligations.ValidWordIsItsTwoFields := by
  intro b w hb hw
  rw [Nat.mul_comm]
  exact ⟨toNat_eq_fields hb hw, timestampField_lt hb w, randomField_lt hb w⟩

end Sys2Proof.Machine

/-! ### What a step changes (10_state.md, 00_scope.md) -/

namespace Sys2Proof.Machine

/-- No result register and no CODE differs (R32). -/
def SameResults (g g' : Regs) : Prop :=
  g'.wordOut = g.wordOut ∧ g'.msOut = g.msOut ∧ g'.tsOut = g.tsOut ∧ g'.rndOut = g.rndOut ∧
    g'.bytesOut = g.bytesOut ∧ g'.code = g.code

theorem SameOperands.refl (g : Regs) : SameOperands g g := ⟨rfl, rfl, rfl, rfl, rfl⟩

theorem SameResults.refl (g : Regs) : SameResults g g := ⟨rfl, rfl, rfl, rfl, rfl, rfl⟩

theorem bodyOfWord_sameOperands (c : Word32) (b : Build) (g : Regs) : SameOperands g (bodyOfWord c b g) := by
  cases hc : decode c with
  | ok i => exact bodyOfWord_ok hc ▸ bodyOf_operands i b g
  | error r => exact bodyOfWord_error hc b g ▸ SameOperands.refl g

theorem writeReg_sameResults (g : Regs) (r : Reg) (v : Word32) : SameResults g (writeReg g r v) :=
  ⟨writeReg_wordOut .., writeReg_msOut .., writeReg_tsOut .., writeReg_rndOut .., writeReg_bytesOut ..,
    writeReg_code ..⟩

/-- The inputs that can change an operand register (R31). -/
theorem Effect.operands {e : Event} {s t : State} (h : Effect e s t) : SameOperands s.regs t.regs ∨
    (∃ off v, e = .access ⟨s.build.base + off, 4, .write v⟩ ∧ off % 4 = 0 ∧
      (0x20 ≤ off ∧ off < 0x48 ∨ 0x50 ≤ off ∧ off < 0x60)) ∨ e = .releaseReset ∨ e = .powerCycle := by
  cases h with
  | write off r v _ _ hr =>
    obtain rfl := regOffset_of_regAt hr
    by_cases hrw : regAccess r = .readWrite
    · exact .inr (.inl ⟨_, v, rfl, (regOffset_aligned r).1, (regAccess_readWrite_iff r).1 hrw⟩)
    · rw [writeReg_of_not_readWrite hrw]
      exact .inl (.refl _)
  | command c => exact .inl (bodyOfWord_sameOperands c _ _)
  | unanswered a x => exact .inl (by rw [respondOpen_regs]; exact .refl _)
  | read => exact .inl (.refl _)
  | ignored => exact .inl (.refl _)
  | assertReset => exact .inl (.refl _)
  | releaseReset => exact .inr (.inr (.inl rfl))
  | powerCycle => exact .inr (.inr (.inr rfl))

/-- The inputs that can change a result register or CODE (R32). -/
theorem Effect.results {e : Event} {s t : State} (h : Effect e s t) : SameResults s.regs t.regs ∨
    (∃ c, e = .access ⟨s.build.base + 0x10, 4, .write c⟩) ∨ e = .releaseReset ∨ e = .powerCycle := by
  cases h with
  | write off r v => exact .inl (writeReg_sameResults _ r v)
  | command c => exact .inr (.inl ⟨c, rfl⟩)
  | unanswered a x => exact .inl (by rw [respondOpen_regs]; exact .refl _)
  | read => exact .inl (.refl _)
  | ignored => exact .inl (.refl _)
  | assertReset => exact .inl (.refl _)
  | releaseReset => exact .inr (.inr (.inl rfl))
  | powerCycle => exact .inr (.inr (.inr rfl))

/-- The effect of a step that has an input to take. -/
theorem effect_of_step {s t : State} {e : Event} {rest : List Event} (hp : s.pending = e :: rest)
    (h : step s = .next t) : Effect e { s with pending := rest } t := by
  obtain ⟨-, ⟨hnil, -⟩ | ⟨e', rest', hp', heff⟩⟩ := step_next h
  · rw [hp] at hnil
    cases hnil
  · obtain ⟨rfl, rfl⟩ := List.cons.inj (hp.symm.trans hp')
    exact heff

/-- Settles O38: of the inputs a step can take, only these three change an operand register. -/
theorem operandsChangeOnlyByWritesAndReset : Obligations.OperandsChangeOnlyByWritesAndReset :=
  fun _ _ _ _ hp hstep hchanged => (effect_of_step hp hstep).operands.resolve_left hchanged

/-- Settles O39: of the inputs a step can take, only these three change a result register or CODE. -/
theorem resultsChangeOnlyByCommandsAndReset : Obligations.ResultsChangeOnlyByCommandsAndReset :=
  fun _ _ _ _ hp hstep hchanged => (effect_of_step hp hstep).results.resolve_left hchanged

/-- Settles O40: no input changes the build or the inputs behind it, and with none on its way the state stays. -/
theorem stepTakesOneInputAndKeepsTheBuild : Obligations.StepTakesOneInputAndKeepsTheBuild := by
  intro s t hstep
  obtain ⟨-, ⟨hnil, rfl⟩ | ⟨e, rest, hp, heff⟩⟩ := step_next hstep
  · exact ⟨rfl, by rw [hnil]; rfl, fun _ => rfl⟩
  · obtain ⟨hbuild, hpending⟩ := heff.build_pending
    exact ⟨hbuild, by rw [hp]; exact hpending, fun hnil => by rw [hp] at hnil; cases hnil⟩

end Sys2Proof.Machine

/-! ### The register window (10_state.md, 20_memory.md) -/

namespace Sys2Proof.Machine

/-- A 64-bit group is made up of the reads of its registers, lowest offset first (R15). -/
theorem memRead_pair {s : State} {r : Fin 2 → Reg} {g : Word64}
    (h : ∀ j, readReg s.build s.regs (r j) = groupReg g j) :
    memRead s (regOffset (r 1)) ++ memRead s (regOffset (r 0)) = g := by
  simp only [memRead_regOffset, h]
  exact pair_concat g

/-- A 128-bit group is made up of the reads of its registers, lowest offset first (R15). -/
theorem memRead_quad {s : State} {r : Fin 4 → Reg} {g : Word128}
    (h : ∀ j, readReg s.build s.regs (r j) = groupReg g j) :
    memRead s (regOffset (r 3)) ++ memRead s (regOffset (r 2)) ++ memRead s (regOffset (r 1)) ++
      memRead s (regOffset (r 0)) = g := by
  simp only [memRead_regOffset, h]
  exact quad_concat g

/-- The reserved bits 31:3 of STATUS stand above CODE and are zero (R20). -/
theorem statusWord_eq_append (c : BitVec 3) : statusWord c = 0#29 ++ c := by
  revert c
  decide

/-- Settles O28: each group's registers stand at its offsets of R14, STATUS is CODE below zeros, and CMD stores
nothing. -/
theorem groupsReadAsConcatenations : Obligations.GroupsReadAsConcatenations := by
  intro s
  exact ⟨memRead_quad (r := .wordIn) fun _ => rfl, memRead_pair (r := .msIn) fun _ => rfl,
    memRead_pair (r := .tsIn) fun _ => rfl, memRead_pair (r := .rndIn) fun _ => rfl,
    memRead_quad (r := .bytesIn) fun _ => rfl, memRead_quad (r := .wordOut) fun _ => rfl,
    memRead_pair (r := .msOut) fun _ => rfl, memRead_pair (r := .tsOut) fun _ => rfl,
    memRead_pair (r := .rndOut) fun _ => rfl, memRead_quad (r := .bytesOut) fun _ => rfl,
    memRead_pair (r := .epoch) (g := epochWord) fun _ => rfl,
    (memRead_regOffset s .status).trans (statusWord_eq_append s.regs.code), memRead_regOffset s .cmd⟩

/-- A byte of the window stands in the register over it: the one at the aligned offset below (R45). -/
theorem windowByte_add (s : State) {base : Nat} (hbase : base % 4 = 0) (k : Nat) :
    windowByte s (base + k) = byteLane (memRead s (base + 4 * (k / 4))) (k % 4) := by
  rw [windowByte, show base + k - (base + k) % 4 = base + 4 * (k / 4) by omega,
    show (base + k) % 4 = k % 4 by omega]

/-- Byte `k` of a group is lane `k % 4` of its register `k / 4` (R16). -/
theorem byteLane_groupReg_div {n : Nat} (g : BitVec n) (k : Nat) :
    byteLane (groupReg g (k / 4)) (k % 4) = byteLane g k := by
  rw [byteLane_groupReg g _ (Nat.mod_lt k (by decide)), Nat.div_add_mod]

/-- Settles O29: the register over byte `k` of the group is its register `k / 4`. -/
theorem bytesGroupsAreInStreamOrder : Obligations.BytesGroupsAreInStreamOrder := by
  intro s k hk
  have hj : k / 4 < 4 := by omega
  rw [windowByte_add s rfl, windowByte_add s rfl, memRead_bytesIn s hj, memRead_bytesOut s hj,
    byteLane_groupReg_div, byteLane_groupReg_div]
  exact ⟨rfl, rfl⟩

/-- Settles O31: a read records its answer and does nothing else. -/
theorem legalReadChangesNothing : Obligations.LegalReadChangesNothing :=
  fun _ _ hs hlt hal => step_read hs hlt hal

/-- At every aligned offset of the operand groups stands an operand register of R14's table. -/
theorem exists_readWrite_reg {off : Nat} (h : 0x20 ≤ off ∧ off < 0x48 ∨ 0x50 ≤ off ∧ off < 0x60)
    (hal : off % 4 = 0) : ∃ r, regOffset r = off ∧ regAccess r = .readWrite := by
  obtain ⟨n, rfl⟩ := Nat.dvd_of_mod_eq_zero hal
  have table : ∀ n < 24, (0x20 ≤ 4 * n ∧ 4 * n < 0x48 ∨ 0x50 ≤ 4 * n ∧ 4 * n < 0x60) →
      ∃ r ∈ allRegs, regOffset r = 4 * n ∧ regAccess r = .readWrite := by decide
  obtain ⟨r, -, hr⟩ := table n (by omega) h
  exact ⟨r, hr⟩

/-- Settles O32: the write replaces the one register at its offset, which reads back; every other register, and all
beside the operands, is as it was. -/
theorem operandWriteStoresTheWord : Obligations.OperandWriteStoresTheWord := by
  intro s off v hs hoff hal
  obtain ⟨r, rfl, hr⟩ := exists_readWrite_reg hoff hal
  refine ⟨_, step_write_reg hs (by simp [hr]) v, ?_, fun off' _ hne => ?_, rfl, rfl, rfl, rfl, rfl,
    writeReg_sameResults s.regs r v⟩
  · rw [memRead_regOffset]
    exact readReg_writeReg_self _ _ hr v
  · refine memRead_eq_of_readReg ?_ fun r' hr' => readReg_writeReg_ne _ _ ?_ v
    · rfl
    · rintro rfl
      exact hne hr'.symm

/-- Writing the low register of a 64-bit group leaves its high half (R115). -/
theorem setGroupReg_low (g : Word64) (v : Word32) : setGroupReg g 0 v = g.extractLsb' 32 32 ++ v := by
  rw [← pair_concat (setGroupReg g 0 v), groupReg_setGroupReg _ _ _ (by omega),
    groupReg_setGroupReg_ne _ _ (by omega) (by omega)]
  rfl

/-- Writing the high register of a 64-bit group leaves its low half (R115). -/
theorem setGroupReg_high (g : Word64) (v : Word32) : setGroupReg g 1 v = v ++ g.extractLsb' 0 32 := by
  rw [← pair_concat (setGroupReg g 1 v), groupReg_setGroupReg _ _ _ (by omega),
    groupReg_setGroupReg_ne _ _ (by omega) (by omega)]
  rfl

/-- Settles O37: each write replaces its own half of the group. -/
theorem tornGroupHoldsTheMixture : Obligations.TornGroupHoldsTheMixture := by
  intro s v hs
  rw [← setGroupReg_low, ← setGroupReg_high]
  exact ⟨step_write_reg (r := .msIn 0) hs (by decide) v, step_write_reg (r := .tsIn 1) hs (by decide) v⟩

theorem groupReg_zero (n j : Nat) : groupReg (0 : BitVec n) j = 0 := by simp [groupReg]

/-- Right after reset every register but CFG and EPOCH reads 0 (R40). -/
theorem readReg_reset (b : Build) {r : Reg} (hcfg : regOffset r ≠ 0x00) (hlo : regOffset r ≠ 0x08)
    (hhi : regOffset r ≠ 0x0C) : readReg b Regs.reset r = 0 := by
  cases r with
  | cfg => exact absurd rfl hcfg
  | epoch j => simp only [regOffset] at hlo hhi; omega
  | cmd => rfl
  | status => rfl
  | _ j => exact groupReg_zero _ j

/-- Settles O49: CFG and EPOCH are the constants of the default build, every other register is 0 after reset, and the
reserved offsets read 0. -/
theorem windowAfterReset : Obligations.WindowAfterReset := by
  refine ⟨by decide, by decide, by decide, fun off hcfg hlo hhi => ?_⟩
  cases hr : regAt off with
  | none => exact memRead_reserved hr
  | some r =>
    obtain rfl := regOffset_of_regAt hr
    exact (memRead_regOffset _ r).trans (readReg_reset _ hcfg hlo hhi)

/-! ### Accesses that no register answers (20_memory.md, 70_reset_and_hazards.md) -/

/-- An open answer is recorded, with or without a draw, and nothing else changes. -/
theorem respondOpen_eq (k : AccessKind) (x : Option Word32 → Response) (s : State) :
    ∃ v d, respondOpen k x s = { s with response := some (x v), draws := d } := by
  cases k with
  | read => exact ⟨_, _, rfl⟩
  | write _ => exact ⟨none, s.draws, rfl⟩

theorem busAccess_outside {s : State} {a : Access} (h : ¬ InWindow s.build a.addr) :
    busAccess a s = .next (respondOpen a.kind .elsewhere s) := if_neg h

theorem busAccess_running {s : State} {a : Access} (hw : InWindow s.build a.addr) (hrun : s.phase = .running) :
    busAccess a s = if LegalAccess a then legalAccess a s else illegalAccess a s := by
  rw [busAccess, if_pos hw, hrun]

/-- Settles O36: the access does not reach the block, so its answer is the open one of the platform. -/
theorem outsideTheWindowNothingChanges : Obligations.OutsideTheWindowNothingChanges := by
  intro s a hb hout
  obtain ⟨v, d, e⟩ := respondOpen_eq a.kind .elsewhere s
  refine ⟨v, d, ?_⟩
  rw [step_issue hb, takeEvent, busAccess_outside (by omega), e]

/-- Settles O35: an access in the window of a ready block that fails R48 is illegal, and the policy decides between
an open answer and the fault. -/
theorem illegalAccessIsBusError : Obligations.IllegalAccessIsBusError := by
  intro s a ⟨hb, hrun⟩ hlow hhigh hbad
  have hstep : step (issue (.access a) s) = illegalAccess a s := by
    rw [step_issue hb, takeEvent, busAccess_running ⟨hlow, hhigh⟩ hrun, if_neg (by omega)]
  constructor <;> intro hpolicy
  · obtain ⟨v, d, e⟩ := respondOpen_eq a.kind .busError s
    exact ⟨v, d, by rw [hstep, illegalAccess, hpolicy, e]⟩
  · rw [hstep, illegalAccess, hpolicy]

/-- Settles O48: the bus refuses an access by the condition of the block, and a loss of power leaves no block
running. -/
theorem noAccessInResetOrBeforeIt : Obligations.NoAccessInResetOrBeforeIt := by
  intro s a hb hw
  have hstep : step (issue (.access a) s) = busAccess a s := step_issue hb _
  refine ⟨fun hreset => ?_, fun hpower => ?_, powerCycle s, step_issue hb .powerCycle,
    phaseAfterPower_ne_running s.phase⟩
  · rw [hstep, busAccess, if_pos hw, hreset]
  · rw [hstep, busAccess, if_pos hw, hpower]

/-- Settles O47: the assertion puts the block in reset from any condition, and the release then gives the reset
values. -/
theorem resetGivesTheResetValues : Obligations.ResetGivesTheResetValues := by
  intro s hb
  refine ⟨assertReset s, { assertReset s with phase := .running, regs := Regs.reset }, step_issue hb .assertReset,
    rfl, ?_, rfl, rfl, rfl⟩
  rw [step_issue (s := assertReset s) hb, takeEvent, releaseReset_of_inReset (assertReset_phase s)]

/-- Settles O45: both tests of the build, the step's and the command's, fail. -/
theorem illegalBuildIsRefused : Obligations.IllegalBuildIsRefused := by
  intro s i hwidths
  have hb : ¬ s.build.WellFormed := by omega
  rw [exec_eq_runCommand, runCommand_of_illegal hb, step, if_neg hb]
  exact ⟨rfl, rfl⟩

/-- In a legal build a write at any offset is done. -/
theorem memWrite_total {s : State} (hb : s.build.WellFormed) (off : Nat) (v : Word32) :
    ∃ t, memWrite off v s = .next t := by
  cases hr : regAt off with
  | none => exact ⟨_, memWrite_reserved hr v s⟩
  | some r =>
    by_cases hk : regAccess r = .writeOnly
    · obtain rfl := (regAccess_writeOnly_iff r).1 hk
      obtain rfl := regOffset_of_regAt hr
      rw [memWrite_cmd, command_eq_runCommand, runCommand_of_wellFormed hb]
      exact ⟨_, rfl⟩
    · exact ⟨_, memWrite_of_regAt hr hk v s⟩

theorem legalAccess_total {s : State} (hb : s.build.WellFormed) (a : Access) : ∃ t, legalAccess a s = .next t := by
  obtain ⟨addr, size, kind⟩ := a
  cases kind with
  | read => exact ⟨_, rfl⟩
  | write v =>
    obtain ⟨t, ht⟩ := memWrite_total hb (addr - s.build.base) v
    exact ⟨respond .done t, by simp only [legalAccess, ht, respondAfter]⟩

/-- Settles O46: reset and power inputs always have an effect, an access elsewhere gets an open answer, and the duty
leaves only legal accesses to a running block. -/
theorem dutifulHostNeverStopsTheBlock : Obligations.DutifulHostNeverStopsTheBlock := by
  intro s e hb hduty
  rw [step_issue hb]
  cases e with
  | access a =>
    by_cases hw : InWindow s.build a.addr
    · obtain ⟨hrun, hlegal⟩ := hduty hw
      rw [takeEvent, busAccess_running hw hrun, if_pos hlegal]
      exact legalAccess_total hb a
    · exact ⟨_, busAccess_outside hw⟩
  | assertReset => exact ⟨_, rfl⟩
  | releaseReset => exact ⟨_, rfl⟩
  | powerCycle => exact ⟨_, rfl⟩

/-- PACK reports OK exactly at a representable instant (R78, R79). -/
theorem exec_pack_code {s : State} (hb : s.build.WellFormed) : ∃ t, exec .pack s = .next t ∧
    t.regs.code = if 0 ≤ s.regs.msIn.toInt - 1577836800000 ∧
      s.regs.msIn.toInt - 1577836800000 < 2 ^ s.build.wT then 0 else 2 :=
  ⟨_, exec_of_wellFormed .pack hb, packField_code _ _ _⟩

/-- Settles O51: the four instants are EPOCH_MS plus `2^W_T - 1` and plus `2^W_T`, for the two widths. -/
theorem horizonOfBothLayouts : Obligations.HorizonOfBothLayouts := by
  intro s hb
  obtain ⟨t, ht, hcode⟩ := exec_pack_code hb
  refine ⟨fun hT => ⟨fun hms => ⟨t, ht, ?_⟩, fun hms => ⟨t, ht, ?_⟩⟩,
    fun hT => ⟨fun hms => ⟨t, ht, ?_⟩, fun hms => ⟨t, ht, ?_⟩⟩⟩ <;> rw [hcode, hT, hms] <;> decide

end Sys2Proof.Machine

/-! ### What a step does not depend on (20_memory.md, 70_reset_and_hazards.md) -/

namespace Sys2Proof.Machine

/-- The state with its build changed. -/
def State.rebuild (f : Build → Build) (s : State) : State := { s with build := f s.build }

/-- The outcome with the build of its next state changed. -/
def rebuildOutcome (f : Build → Build) : Host.Outcome State Fault Refusal → Host.Outcome State Fault Refusal
  | .next t => .next (t.rebuild f)
  | .fault r => .fault r
  | .refused r => .refused r

/-- The build with another LATENCY (R121). -/
def setLatency (n : Nat) (b : Build) : Build := { b with latency := n }

/-- The build with its window elsewhere (R41). -/
def setBase (base : Nat) (b : Build) : Build := { b with base := base }

/-- Builds of one word format (R2). -/
structure SameFormat (b b' : Build) : Prop where
  wT : b'.wT = b.wT
  wR : b'.wR = b.wR

theorem sameFormat_setLatency (n : Nat) (b : Build) : SameFormat b (setLatency n b) := ⟨rfl, rfl⟩

theorem sameFormat_setBase (base : Nat) (b : Build) : SameFormat b (setBase base b) := ⟨rfl, rfl⟩

/-! Registers and commands depend on the word format of the build alone. -/

theorem SameFormat.readReg {b b' : Build} (h : SameFormat b b') (g : Regs) (r : Reg) :
    readReg b' g r = readReg b g r := by
  cases r with
  | cfg => simp only [Machine.readReg, cfgWord, Build.rsv, h.wT, h.wR]
  | _ => rfl

theorem SameFormat.validWord {b b' : Build} (h : SameFormat b b') (w : Word128) : ValidWord b' w ↔ ValidWord b w := by
  rw [ValidWord, ValidWord, h.wT, h.wR]

theorem SameFormat.bodyOf {b b' : Build} (h : SameFormat b b') (i : Instr) (g : Regs) :
    bodyOf i b' g = bodyOf i b g := by
  cases i with
  | pack => rw [bodyOf_pack, bodyOf_pack, packField_eq, packField_eq, h.wT, h.wR]
  | packf => rw [bodyOf_packf, bodyOf_packf, packField_eq, packField_eq, h.wT, h.wR]
  | unpack => simp only [bodyOf_unpack, unpackBody, h.validWord, timestampField, randomField, h.wT, h.wR]
  | tobytes => rfl
  | frombytes => simp only [bodyOf_frombytes, frombytesBody, h.validWord]

theorem SameFormat.bodyOfWord {b b' : Build} (h : SameFormat b b') (c : Word32) (g : Regs) :
    bodyOfWord c b' g = bodyOfWord c b g := by
  cases hc : decode c with
  | ok i => rw [bodyOfWord_ok hc, h.bodyOf]
  | error r => rw [bodyOfWord_error hc, bodyOfWord_error hc]

/-! A build of the same format in the legal range makes the same of every access to the block. -/

section
variable {f : Build → Build} {s : State} (hb : s.build.WellFormed) (hb' : (f s.build).WellFormed)
  (hf : SameFormat s.build (f s.build))
include hf

theorem memRead_rebuild (off : Nat) : memRead (s.rebuild f) off = memRead s off := by
  cases hr : regAt off with
  | none => rw [memRead_reserved hr, memRead_reserved hr]
  | some r =>
    rw [memRead_of_regAt hr, memRead_of_regAt hr]
    exact hf.readReg s.regs r

include hb hb'

theorem command_rebuild (c : Word32) : command c (s.rebuild f) = rebuildOutcome f (command c s) := by
  rw [command_eq_runCommand, command_eq_runCommand, runCommand_of_wellFormed hb,
    runCommand_of_wellFormed (s := s.rebuild f) hb']
  change _ = Host.Outcome.next { s.rebuild f with regs := bodyOfWord c s.build s.regs }
  rw [← hf.bodyOfWord]
  rfl

theorem memWrite_rebuild (off : Nat) (v : Word32) :
    memWrite off v (s.rebuild f) = rebuildOutcome f (memWrite off v s) := by
  cases hr : regAt off with
  | none =>
    rw [memWrite_reserved hr, memWrite_reserved hr]
    rfl
  | some r =>
    by_cases hk : regAccess r = .writeOnly
    · obtain rfl := (regAccess_writeOnly_iff r).1 hk
      obtain rfl := regOffset_of_regAt hr
      rw [memWrite_cmd, memWrite_cmd, command_rebuild hb hb' hf]
    · rw [memWrite_of_regAt hr hk, memWrite_of_regAt hr hk]
      rfl

/-- The accesses are of one kind and at one offset of the two windows. -/
theorem legalAccess_rebuild {a a' : Access} (hkind : a'.kind = a.kind)
    (hoff : a'.addr - (f s.build).base = a.addr - s.build.base) :
    legalAccess a' (s.rebuild f) = rebuildOutcome f (legalAccess a s) := by
  have haddr : a'.addr - (s.rebuild f).build.base = a.addr - s.build.base := hoff
  unfold legalAccess
  rw [hkind, haddr]
  cases a.kind with
  | read =>
    simp only [memRead_rebuild hf]
    rfl
  | write v =>
    simp only [memWrite_rebuild hb hb' hf]
    cases memWrite (a.addr - s.build.base) v s <;> rfl

end

/-! LATENCY moves no window and is no part of the policy, so no input sees it. -/

theorem respondOpen_rebuild (f : Build → Build) (k : AccessKind) (x : Option Word32 → Response) (s : State) :
    respondOpen k x (s.rebuild f) = (respondOpen k x s).rebuild f := by cases k <;> rfl

theorem illegalAccess_setLatency (n : Nat) (a : Access) (s : State) :
    illegalAccess a (s.rebuild (setLatency n)) = rebuildOutcome (setLatency n) (illegalAccess a s) := by
  have hpolicy : (s.rebuild (setLatency n)).build.busErrorPolicy = s.build.busErrorPolicy := rfl
  unfold illegalAccess
  rw [hpolicy]
  cases s.build.busErrorPolicy with
  | report => exact congrArg Host.Outcome.next (respondOpen_rebuild ..)
  | faultProgram => rfl

theorem busAccess_setLatency {n : Nat} {s : State} (hb : s.build.WellFormed)
    (hb' : (setLatency n s.build).WellFormed) (a : Access) :
    busAccess a (s.rebuild (setLatency n)) = rebuildOutcome (setLatency n) (busAccess a s) := by
  have hphase : (s.rebuild (setLatency n)).phase = s.phase := rfl
  by_cases hw : InWindow s.build a.addr
  · unfold busAccess
    rw [if_pos hw, if_pos (c := InWindow (s.rebuild (setLatency n)).build a.addr) hw, hphase]
    cases s.phase with
    | inReset => rfl
    | powerUp => rfl
    | running =>
      by_cases hl : LegalAccess a
      · simp only [if_pos hl]
        exact legalAccess_rebuild hb hb' (sameFormat_setLatency n _) rfl rfl
      · simp only [if_neg hl]
        exact illegalAccess_setLatency n a s
  · rw [busAccess_outside hw, busAccess_outside (s := s.rebuild (setLatency n)) hw, respondOpen_rebuild]
    rfl

theorem releaseReset_rebuild (f : Build → Build) (s : State) :
    releaseReset (s.rebuild f) = (releaseReset s).rebuild f := by
  by_cases h : s.phase = .inReset
  · rw [releaseReset_of_inReset h, releaseReset_of_inReset (s := s.rebuild f) h]
    rfl
  · rw [releaseReset_of_not_inReset h, releaseReset_of_not_inReset (s := s.rebuild f) h]

theorem takeEvent_setLatency {n : Nat} {s : State} (hb : s.build.WellFormed)
    (hb' : (setLatency n s.build).WellFormed) (e : Event) :
    takeEvent e (s.rebuild (setLatency n)) = rebuildOutcome (setLatency n) (takeEvent e s) := by
  cases e with
  | access a => exact busAccess_setLatency hb hb' a
  | assertReset => rfl
  | releaseReset => exact congrArg Host.Outcome.next (releaseReset_rebuild ..)
  | powerCycle => rfl

theorem step_setLatency {n : Nat} {s : State} (hb : s.build.WellFormed) (hn : 1 ≤ n) :
    step (s.rebuild (setLatency n)) = rebuildOutcome (setLatency n) (step s) := by
  have ⟨hT, hR, hbase, _⟩ := hb
  have hb' : (setLatency n s.build).WellFormed := ⟨hT, hR, hbase, hn⟩
  cases hp : s.pending with
  | nil =>
    have hnil : (s.rebuild (setLatency n)).pending = [] := hp
    rw [step, step, if_pos hb, if_pos (c := (s.rebuild (setLatency n)).build.WellFormed) hb', takeNext, takeNext, hp,
      hnil]
    rfl
  | cons e rest =>
    rw [step_cons hb hp, step_cons (s := s.rebuild (setLatency n)) hb' hp]
    exact takeEvent_setLatency (s := { s with pending := rest }) hb hb' e

/-- Settles O41: the two steps take the same input, and none of them sees LATENCY. -/
theorem latencyHasNoEffect : Obligations.LatencyHasNoEffect := by
  intro s n hb hn
  refine (step_setLatency hb hn).trans ?_
  cases step s <;> rfl

/-- Settles O42: the two accesses are legal and at one offset of their windows, and the offset decides what they
do. -/
theorem windowMovesWithItsBase : Obligations.WindowMovesWithItsBase := by
  intro s base off k hs hbase hlt hal
  have ⟨hb, hrun⟩ := hs
  have ⟨hT, hR, _, hlat⟩ := hb
  have hb' : (setBase base s.build).WellFormed := ⟨hT, hR, hbase, hlat⟩
  have hmoved : step (issue (.access ⟨base + off, 4, k⟩) (s.rebuild (setBase base))) =
      rebuildOutcome (setBase base) (legalAccess ⟨s.build.base + off, 4, k⟩ s) :=
    (step_legalAccess (s := s.rebuild (setBase base)) ⟨hb', hrun⟩ hlt hal k).trans
      (legalAccess_rebuild hb hb' (sameFormat_setBase base _) rfl (by simp [State.rebuild, setBase]))
  rw [step_legalAccess hs hlt hal]
  refine hmoved.trans ?_
  cases legalAccess ⟨s.build.base + off, 4, k⟩ s <;> rfl

end Sys2Proof.Machine

/-! ### Host programs (30_encoding.md) -/

namespace Sys2Proof.Machine

/-- Settles O55: at `halt` and past the last line a run makes no access. -/
theorem endedRunStays : Obligations.EndedRunStays := by
  intro h hended
  cases hl : h.prog[h.line]? with
  | none => rw [hostStep, hl]
  | some l =>
    cases l with
    | halt => rw [hostStep, hl]
    | _ => simp [ended, hl] at hended

/-- Settles O56: the statement is true only of a legal read of a ready block that gives `v`, and such a line reads
its register's value. -/
theorem statedReadsGiveTheirValue : Obligations.StatedReadsGiveTheirValue := by
  intro h off v hl
  have hclaim := (lineClaim_rdIs hl).trans ruleValue_eq_some_iff
  constructor
  · intro htrue
    obtain ⟨hready, hlt, hal, rfl⟩ := hclaim.1 htrue
    simp only [hostStep, hl, hostRead_legal hready hlt hal]
    rfl
  · intro hnone
    rw [Bool.eq_false_iff]
    intro htrue
    obtain ⟨hready, hlt, hal, -⟩ := hclaim.1 htrue
    obtain hout | hmis | hnot := hnone
    · omega
    · exact hmis hal
    · exact hnot hready

/-- A jump goes to the first line that is its label. -/
theorem hostGoto_first {h : HostRun} {l : String} {n : Nat} (hn : h.prog[n]? = some (.label l))
    (hfirst : ∀ m < n, h.prog[m]? ≠ some (.label l)) : hostGoto h l = .next { h with line := n } := by
  obtain ⟨hlt, hlabel⟩ := List.getElem?_eq_some_iff.1 hn
  have hfind : h.prog.findIdx? (· = .label l) = some n := by
    refine List.findIdx?_eq_some_iff_getElem.2 ⟨hlt, by simp [hlabel], fun m hm => ?_⟩
    have hne := hfirst m hm
    rw [List.getElem?_eq_getElem (hm.trans hlt)] at hne
    simpa using hne
  rw [hostGoto, hfind]

/-- Settles O54: the value read decides between the first line of the label and the next line. -/
theorem jumpsFollowTheValueRead : Obligations.JumpsFollowTheValueRead := by
  intro h off n l hready hlt hal hn hfirst
  constructor
  · intro hl
    refine ⟨respond (.data (memRead h.block off)) h.block, ?_, rfl⟩
    simp only [hostStep, hl, hostRead_legal hready hlt hal]
    by_cases hv : memRead h.block off = 0
    · simp [hv, hostAdvance]
    · simp only [hv, ne_eq, not_false_eq_true, if_true]
      exact hostGoto_first hn hfirst
  · intro hl
    rw [hostStep, hl]
    exact hostGoto_first hn hfirst

/-! A run of consecutive lines, from the line to run next. -/

/-- The lines stand in the program from the line to run next. -/
def LinesNext (h : HostRun) (ls : List Line) : Prop := ls <+: h.prog.drop h.line

theorem linesNext_of_prog {h : HostRun} {pre ls post : List Line} (hprog : h.prog = pre ++ ls ++ post)
    (hline : h.line = pre.length) : LinesNext h ls := by
  rw [LinesNext, hprog, hline, List.append_assoc, List.drop_left]
  exact List.prefix_append ls post

theorem LinesNext.head {h : HostRun} {l : Line} {ls : List Line} (hl : LinesNext h (l :: ls)) :
    h.prog[h.line]? = some l := by
  obtain ⟨post, hpost⟩ := hl
  have hhead := congrArg (·[0]?) hpost
  simpa using hhead.symm

theorem LinesNext.left {h : HostRun} {ls ls' : List Line} (hl : LinesNext h (ls ++ ls')) : LinesNext h ls :=
  (List.prefix_append ls ls').trans hl

/-- After the first lines the run stands at the others. -/
theorem LinesNext.right {h h' : HostRun} {ls ls' : List Line} (hl : LinesNext h (ls ++ ls'))
    (hprog : h'.prog = h.prog) (hline : h'.line = h.line + ls.length) : LinesNext h' ls' := by
  obtain ⟨post, hpost⟩ := hl
  refine ⟨post, ?_⟩
  rw [hprog, hline, ← List.drop_drop, ← hpost, List.append_assoc, List.drop_left]

/-- One line, then the others. -/
theorem hostSteps_succ {h h' : HostRun} (hstep : hostStep h = .next h') (k : Nat) :
    hostSteps (k + 1) h = hostSteps k h' := by
  rw [hostSteps, hstep]

theorem hostSteps_add_of_next {h h' : HostRun} {m : Nat} (hsteps : hostSteps m h = .next h') (n : Nat) :
    hostSteps (m + n) h = hostSteps n h' := by
  rw [hostSteps_add, hsteps]

/-! Lines that read: each value is recorded, and no register changes. -/

theorem hostStep_rd {h : HostRun} {off : Nat} (hr : Ready h.block) (hlt : off < 0x100) (hal : off % 4 = 0)
    (hl : h.prog[h.line]? = some (.rd off)) : hostStep h = .next { h with
      block := respond (.data (memRead h.block off)) h.block, line := h.line + 1,
      reads := memRead h.block off :: h.reads } := by
  rw [hostStep, hl]
  exact hostRead_legal hr hlt hal _

/-- Consecutive reads record what the block reads at their offsets, the latest first. -/
theorem hostSteps_reads {offs : List Nat} {h : HostRun} (hr : Ready h.block)
    (hoffs : ∀ off ∈ offs, off < 0x100 ∧ off % 4 = 0) (hl : LinesNext h (offs.map .rd)) :
    ∃ x, hostSteps offs.length h = .next { h with
      block := { h.block with response := x }, line := h.line + offs.length,
      reads := (offs.map (memRead h.block)).reverse ++ h.reads } := by
  induction offs generalizing h with
  | nil => exact ⟨h.block.response, rfl⟩
  | cons off offs ih =>
    obtain ⟨⟨hlt, hal⟩, hoffs'⟩ := List.forall_mem_cons.1 hoffs
    have hstep := hostStep_rd hr hlt hal hl.head
    obtain ⟨x, hx⟩ := ih (h := { h with
      block := respond (.data (memRead h.block off)) h.block, line := h.line + 1,
      reads := memRead h.block off :: h.reads }) hr hoffs' (hl.right (ls := [.rd off]) rfl rfl)
    refine ⟨x, ?_⟩
    rw [List.length_cons, hostSteps_succ hstep, hx, Nat.add_assoc, Nat.add_comm 1, List.map_cons, List.reverse_cons,
      List.append_assoc]
    rfl

/-! Lines that write: a value the line gives, or one the host has read. -/

/-- The line writes `w.2` to the register `w.1`, where the host has read `reads`. -/
def LineWrites (reads : List Word32) (l : Line) (w : Reg × Word32) : Prop :=
  l = .wr (regOffset w.1) w.2 ∨ ∃ k, l = .wrRead (regOffset w.1) k ∧ reads[k]? = some w.2

/-- The registers after writes in this order. -/
def writeRegs (g : Regs) (ws : List (Reg × Word32)) : Regs := ws.foldl (fun g w => writeReg g w.1 w.2) g

theorem hostStep_lineWrites {h : HostRun} {l : Line} {w : Reg × Word32} (hr : Ready h.block)
    (hw : regAccess w.1 = .readWrite) (hl : h.prog[h.line]? = some l) (hlw : LineWrites h.reads l w) :
    hostStep h = .next { h with
      block := respond .done { h.block with regs := writeReg h.block.regs w.1 w.2 }, line := h.line + 1 } := by
  have hnot : regAccess w.1 ≠ .writeOnly := by simp [hw]
  obtain rfl | ⟨k, rfl, hk⟩ := hlw
  · exact hostStep_wr hr hnot hl
  · simp only [hostStep, hl, hk]
    exact hostWrite_reg hr hnot w.2

/-- Consecutive writes of operand registers make their writes, in order, and change no other register. -/
theorem hostSteps_writes {reads : List Word32} {ls : List Line} {ws : List (Reg × Word32)}
    (hlw : List.Forall₂ (LineWrites reads) ls ws) (hws : ∀ w ∈ ws, regAccess w.1 = .readWrite) {h : HostRun}
    (hr : Ready h.block) (hreads : h.reads = reads) (hl : LinesNext h ls) :
    ∃ t, hostSteps ls.length h = .next { h with block := t, line := h.line + ls.length } ∧
      t.regs = writeRegs h.block.regs ws := by
  induction hlw generalizing h with
  | nil => exact ⟨h.block, rfl, rfl⟩
  | @cons l w ls ws hlw _ ih =>
    obtain ⟨hw, hws'⟩ := List.forall_mem_cons.1 hws
    have hstep := hostStep_lineWrites hr hw hl.head (hreads ▸ hlw)
    obtain ⟨t, ht, hregs⟩ := ih hws' (h := { h with
      block := respond .done { h.block with regs := writeReg h.block.regs w.1 w.2 }, line := h.line + 1 })
      hr hreads (hl.right (ls := [l]) rfl rfl)
    refine ⟨t, ?_, hregs⟩
    rw [List.length_cons, hostSteps_succ hstep, ht, Nat.add_assoc, Nat.add_comm 1]

/-- The writes of a 64-bit group, lowest offset first. -/
def pairWrites (r : Fin 2 → Reg) (v : Word64) : List (Reg × Word32) := [(r 0, groupReg v 0), (r 1, groupReg v 1)]

/-- The writes of a 128-bit group, lowest offset first. -/
def quadWrites (r : Fin 4 → Reg) (v : Word128) : List (Reg × Word32) :=
  [(r 0, groupReg v 0), (r 1, groupReg v 1), (r 2, groupReg v 2), (r 3, groupReg v 3)]

theorem regAccess_of_mem_pairWrites {r : Fin 2 → Reg} (hr : ∀ j, regAccess (r j) = .readWrite) (v : Word64) :
    ∀ w ∈ pairWrites r v, regAccess w.1 = .readWrite := by simp [pairWrites, hr]

theorem regAccess_of_mem_quadWrites {r : Fin 4 → Reg} (hr : ∀ j, regAccess (r j) = .readWrite) (v : Word128) :
    ∀ w ∈ quadWrites r v, regAccess w.1 = .readWrite := by simp [quadWrites, hr]

/-! Once all its registers are written, a group holds the value (R68). -/

theorem writeRegs_msIn (g : Regs) (v : Word64) : writeRegs g (pairWrites .msIn v) = { g with msIn := v } :=
  congrArg (fun x => { g with msIn := x }) (setGroupReg_pair g.msIn v)

theorem writeRegs_tsIn (g : Regs) (v : Word64) : writeRegs g (pairWrites .tsIn v) = { g with tsIn := v } :=
  congrArg (fun x => { g with tsIn := x }) (setGroupReg_pair g.tsIn v)

theorem writeRegs_rndIn (g : Regs) (v : Word64) : writeRegs g (pairWrites .rndIn v) = { g with rndIn := v } :=
  congrArg (fun x => { g with rndIn := x }) (setGroupReg_pair g.rndIn v)

theorem writeRegs_wordIn (g : Regs) (v : Word128) : writeRegs g (quadWrites .wordIn v) = { g with wordIn := v } :=
  congrArg (fun x => { g with wordIn := x }) (setGroupReg_quad g.wordIn v)

theorem writeRegs_bytesIn (g : Regs) (v : Word128) : writeRegs g (quadWrites .bytesIn v) = { g with bytesIn := v } :=
  congrArg (fun x => { g with bytesIn := x }) (setGroupReg_quad g.bytesIn v)

/-- The two lines that load a 64-bit group. -/
theorem hostSteps_wrPair {h : HostRun} (hready : Ready h.block) {r : Fin 2 → Reg}
    (hr : ∀ j, regAccess (r j) = .readWrite) {v : Word64} (hl : LinesNext h (wrPair r v)) :
    ∃ t, hostSteps 2 h = .next { h with block := t, line := h.line + 2 } ∧
      t.regs = writeRegs h.block.regs (pairWrites r v) :=
  hostSteps_writes (.cons (.inl rfl) (.cons (.inl rfl) .nil)) (regAccess_of_mem_pairWrites hr v) hready rfl hl

/-- The four lines that load a 128-bit group. -/
theorem hostSteps_wrQuad {h : HostRun} (hready : Ready h.block) {r : Fin 4 → Reg}
    (hr : ∀ j, regAccess (r j) = .readWrite) {v : Word128} (hl : LinesNext h (wrQuad r v)) :
    ∃ t, hostSteps 4 h = .next { h with block := t, line := h.line + 4 } ∧
      t.regs = writeRegs h.block.regs (quadWrites r v) :=
  hostSteps_writes (.cons (.inl rfl) (.cons (.inl rfl) (.cons (.inl rfl) (.cons (.inl rfl) .nil))))
    (regAccess_of_mem_quadWrites hr v) hready rfl hl

/-- Settles O52: each expansion is the writes of its group's registers. -/
theorem loadPseudosSetTheirGroup : Obligations.LoadPseudosSetTheirGroup := by
  intro h pre post hready hline
  refine ⟨fun v hprog => ?_, fun v hprog => ?_, fun v hprog => ?_, fun v hprog => ?_, fun b hprog => ?_⟩
  · obtain ⟨t, ht, hregs⟩ := hostSteps_wrQuad hready (fun _ => rfl) (linesNext_of_prog hprog hline)
    exact ⟨t, ht, hregs.trans (writeRegs_wordIn _ _)⟩
  · obtain ⟨t, ht, hregs⟩ := hostSteps_wrPair hready (fun _ => rfl) (linesNext_of_prog hprog hline)
    exact ⟨t, ht, hregs.trans (writeRegs_msIn _ _)⟩
  · obtain ⟨t, ht, hregs⟩ := hostSteps_wrPair hready (fun _ => rfl) (linesNext_of_prog hprog hline)
    exact ⟨t, ht, hregs.trans (writeRegs_tsIn _ _)⟩
  · obtain ⟨t, ht, hregs⟩ := hostSteps_wrPair hready (fun _ => rfl) (linesNext_of_prog hprog hline)
    exact ⟨t, ht, hregs.trans (writeRegs_rndIn _ _)⟩
  · obtain ⟨t, ht, hregs⟩ := hostSteps_wrQuad hready (fun _ => rfl) (linesNext_of_prog hprog hline)
    refine ⟨t, _, ht, hregs.trans (writeRegs_bytesIn _ _), fun k hk => ?_⟩
    exact (byteLane_bytesGroup _ hk).trans (by simp [hk])

/-- The offsets of a 128-bit group, lowest first. -/
def quadOffsets (r : Fin 4 → Reg) : List Nat := [regOffset (r 0), regOffset (r 1), regOffset (r 2), regOffset (r 3)]

theorem quadOffsets_legal (r : Fin 4 → Reg) : ∀ off ∈ quadOffsets r, off < 0x100 ∧ off % 4 = 0 := by
  have hlegal (j : Fin 4) : regOffset (r j) < 0x100 ∧ regOffset (r j) % 4 = 0 := by
    obtain ⟨hal, hlt⟩ := regOffset_aligned (r j)
    exact ⟨hlt.trans (by decide), hal⟩
  simp [quadOffsets, hlegal]

/-- The four lines that read WORD_OUT record its registers, the latest first. -/
theorem hostSteps_rdQuad_wordOut {h : HostRun} (hready : Ready h.block) (hl : LinesNext h (rdQuad .wordOut)) :
    ∃ h', hostSteps 4 h = .next h' ∧ h'.prog = h.prog ∧ h'.line = h.line + 4 ∧ Ready h'.block ∧
      h'.block.regs = h.block.regs ∧ h'.reads = groupReg h.block.regs.wordOut 3 ::
        groupReg h.block.regs.wordOut 2 :: groupReg h.block.regs.wordOut 1 :: groupReg h.block.regs.wordOut 0 ::
        h.reads := by
  obtain ⟨x, hx⟩ := hostSteps_reads (offs := quadOffsets .wordOut) hready (quadOffsets_legal .wordOut) hl
  exact ⟨_, hx, rfl, rfl, hready, rfl, by simp [quadOffsets, readReg]⟩

/-- The four lines of `mov.out.in` that write: the values read, the earliest first, into WORD_IN. -/
def wordInWriteBack : List Line :=
  [.wrRead (regOffset (.wordIn 0)) 3, .wrRead (regOffset (.wordIn 1)) 2, .wrRead (regOffset (.wordIn 2)) 1,
    .wrRead (regOffset (.wordIn 3)) 0]

theorem expand_movOutIn : expand .movOutIn = rdQuad .wordOut ++ wordInWriteBack := rfl

/-- On a run whose four latest reads are a word's registers, they write that word to WORD_IN. -/
theorem hostSteps_wordInWriteBack {h : HostRun} (hready : Ready h.block) {w : Word128} {reads : List Word32}
    (hreads : h.reads = groupReg w 3 :: groupReg w 2 :: groupReg w 1 :: groupReg w 0 :: reads)
    (hl : LinesNext h wordInWriteBack) : ∃ t, hostSteps 4 h = .next { h with block := t, line := h.line + 4 } ∧
      t.regs = { h.block.regs with wordIn := w } := by
  have hlw : List.Forall₂ (LineWrites (groupReg w 3 :: groupReg w 2 :: groupReg w 1 :: groupReg w 0 :: reads))
      wordInWriteBack (quadWrites .wordIn w) :=
    .cons (.inr ⟨3, rfl, rfl⟩) (.cons (.inr ⟨2, rfl, rfl⟩) (.cons (.inr ⟨1, rfl, rfl⟩)
      (.cons (.inr ⟨0, rfl, rfl⟩) .nil)))
  obtain ⟨t, ht, hregs⟩ := hostSteps_writes hlw (regAccess_of_mem_quadWrites (fun _ => rfl) w) hready hreads hl
  exact ⟨t, ht, hregs.trans (writeRegs_wordIn _ w)⟩

/-- Settles O53: the four reads record the registers of WORD_OUT and change none, and the four writes put them into
WORD_IN. -/
theorem movOutInCopiesTheWord : Obligations.MovOutInCopiesTheWord := by
  intro h pre post hready hline hprog
  rw [expand_movOutIn] at hprog
  have hl := linesNext_of_prog hprog hline
  obtain ⟨h', hread, hprog', hline', hready', hregs', hreads⟩ := hostSteps_rdQuad_wordOut hready hl.left
  obtain ⟨t, hwrite, hregs⟩ := hostSteps_wordInWriteBack hready' hreads (hl.right hprog' hline')
  refine ⟨_, (hostSteps_add_of_next hread 4).trans hwrite, by rw [hline'], by rw [hregs, hregs'], ?_⟩
  rw [hreads, rdwordResult, quad_concat]

end Sys2Proof.Machine
